-- ==== Sys2Proof/Word.lean ====
section
/-! DEFINITION. The word types of the hardware (00_scope.md R7, R14; 10_state.md R21; 20_memory.md R60, R66). -/

namespace Sys2Proof

/-- A register of the window, a command word, a buffer-memory address: 32 bits (R21, R60, R80). -/
abbrev Word := BitVec 32

/-- The addressable unit of buffer memory, and one decoded symbol: 8 bits (R60, R14). -/
abbrev Byte := BitVec 8

/-- One encoded symbol: 12 bits (R7, R100). -/
abbrev Symbol := BitVec 12

/-- The two-byte image of one encoded symbol in buffer memory: 16 bits (R66). -/
abbrev Container := BitVec 16

end Sys2Proof
end

