-- ==== Sys2Proof/Syntax.lean ====
section
/-! DEFINITION. The commands the core accepts, one constructor per row of spec/opcode_table.json (30_encoding.md R82). No
command word carries an operand (R85), so no constructor has an argument. -/

namespace Sys2Proof

/-- A command of the core (R15, R82). -/
inductive Instr where
  /-- NOP, word 0 (R115). -/
  | nop
  /-- ENC_SYM, word 1 (R113). -/
  | encSym
  /-- DEC_SYM, word 2 (R114). -/
  | decSym
  /-- ENC_MSG, word 3 (R147). -/
  | encMsg
  /-- DEC_MSG, word 4 (R148). -/
  | decMsg
  /-- PACK, word 5 (R145). -/
  | pack
  /-- UNPACK, word 6 (R146). -/
  | unpack
  /-- ENC_LEN, word 7 (R149). -/
  | encLen
  deriving DecidableEq, Repr

end Sys2Proof
end

