-- ==== Sys2Proof/WellFormed.lean ====
section
/-! DEFINITION. Well-formed commands and legal command words (30_encoding.md R81, R82, R85). -/

namespace Sys2Proof

/-- Every command is well formed: no command carries an operand that could be out of range (R85). -/
def Instr.wellFormed (i : Instr) : Bool :=
  match i with
  | .nop | .encSym | .decSym | .encMsg | .decMsg | .pack | .unpack | .encLen => true

/-- The reserved field RSVD of a command word, bits 31..4 (R81), is zero. -/
def CmdWord.reservedZero (w : Word) : Bool := w.toNat / 16 == 0

/-- The command number OP of a command word, bits 3..0 (R81), is one of the eight of R82. -/
def CmdWord.opInRange (w : Word) : Bool := w.toNat % 16 ≤ 7

/-- A word is a legal command exactly when RSVD = 0 and OP ≤ 7 (R82). -/
def CmdWord.legal (w : Word) : Bool := CmdWord.reservedZero w && CmdWord.opInRange w

end Sys2Proof
end

