-- ==== Sys2Proof/Decode.lean ====
section
/-! DEFINITION. Decoding of a command word (30_encoding.md R81 to R84) and its inverse, the encoder (R82). -/

namespace Sys2Proof

/-- Why a word is no command (R84). -/
inductive DecodeReject where
  /-- RSVD, bits 31..4, is not zero. -/
  | reservedBits
  /-- RSVD is zero and OP is 8 to 15. -/
  | reservedOp
  deriving DecidableEq, Repr

/-- The field OP, bits 3..0 (R81). -/
def cmdOp (w : Word) : BitVec 4 := w.extractLsb' 0 4

/-- The field RSVD, bits 31..4 (R81). -/
def cmdRsvd (w : Word) : BitVec 28 := w.extractLsb' 4 28

/-- `decode_cmd` of R83: total on 32-bit words. -/
def decodeCmd (w : Word) : Except DecodeReject Instr :=
  if cmdRsvd w ≠ 0 then .error .reservedBits
  else
    match (cmdOp w).toNat with
    | 0 => .ok .nop
    | 1 => .ok .encSym
    | 2 => .ok .decSym
    | 3 => .ok .encMsg
    | 4 => .ok .decMsg
    | 5 => .ok .pack
    | 6 => .ok .unpack
    | 7 => .ok .encLen
    | _ => .error .reservedOp

/-- The command word of each command (R82). -/
def encode (i : Instr) : Word :=
  match i with
  | .nop => 0x00000000
  | .encSym => 0x00000001
  | .decSym => 0x00000002
  | .encMsg => 0x00000003
  | .decMsg => 0x00000004
  | .pack => 0x00000005
  | .unpack => 0x00000006
  | .encLen => 0x00000007

/-- What the decoder reads from a row's bits as spec/opcode_table.json numbers them: one 32-bit word (R80), the bits above
`nbits` zero. Bits above the word belong to no command. -/
def decodeTableWord (nbits w : Nat) : Option Instr :=
  if w % 2 ^ nbits < 2 ^ 32 then (decodeCmd (BitVec.ofNat 32 (w % 2 ^ nbits))).toOption else none

end Sys2Proof
end

