-- ==== Sys2Proof/Config.lean ====
section
/-! DEFINITION. What the platform fixes, and the free values: values the spec leaves open, of which nothing is known. Each is
an opaque constant applied to the number of the draw (`State.draws`) and, for bytes, to the address (log 7). -/

namespace Sys2Proof.Config

/-- MEM_SIZE that `State.reset` names: the whole 32-bit address space. The spec leaves MEM_SIZE open (00_scope.md R7,
20_memory.md R60, U13). DESIGN CHOICE, unsafe, log 5: no statement rests on it. -/
def resetMemSize : Nat := 2 ^ 32

/-- An unspecified 32-bit value: `cur_cmd` with no command in flight (10_state.md R41, U11) and a host read of the window while
`rst` is asserted (70_reset_and_hazards.md R200, U4). -/
opaque freeWord : Nat → Word

/-- An unspecified byte at an address: the output of a command whose input the host wrote (20_memory.md R73, U8), and the output
range after InternalConsistencyFault (60_exceptions.md R175, U10). -/
opaque freeByte : Nat → Nat → Byte

/-- Which of the two allowed values a byte at an address holds or reads as: the command's when true (20_memory.md R73, U7, U9). -/
opaque freePick : Nat → Nat → Bool

/-- Whether an output byte of a command abandoned by reset had been written (70_reset_and_hazards.md R202, U6). -/
opaque freeLanded : Nat → Nat → Bool

/-- Whether a PACK whose input the host wrote ends with InvalidInput (20_memory.md R73, U8). -/
opaque freeRefusal : Nat → Bool

end Sys2Proof.Config
end

