-- ==== Sys2Proof/Machine/State.lean ====
section
/-! DEFINITION. The machine's state: the core's registers and hidden state (10_state.md R20, R21, R41), the buffer memory and the
platform around it (20_memory.md R60, 70_reset_and_hazards.md R200), the host's pending accesses, and the model's own bookkeeping
for the values the spec leaves open. -/

namespace Sys2Proof.Machine

/-- The registers of the window (10_state.md R21). -/
inductive Reg where
  | id | ctrl | status | cmd | arg | result | src | dst | len
  /-- Offsets 0x24 to 0x3C (R35). -/
  | reserved
  deriving DecidableEq, Repr

/-- What happens next, at the machine's boundary or inside it (log 2). -/
inductive Event where
  /-- The core's turn: a command in flight runs to its end (20_memory.md R74). -/
  | core
  /-- A host read of the window: the access's width in bytes and its byte offset in the 64-byte window (10_state.md R36). -/
  | regRead (width : Nat) (offset : BitVec 6)
  /-- A host write of the window (10_state.md R36, R37). -/
  | regWrite (width : Nat) (offset : BitVec 6) (value : Word)
  /-- A host read of one byte of buffer memory (30_encoding.md R86, `mr`). -/
  | memRead (addr : Word)
  /-- A host write of one byte of buffer memory (30_encoding.md R86, `mw`). -/
  | memWrite (addr : Word) (value : Byte)
  /-- `rst` is asserted (70_reset_and_hazards.md R200). -/
  | rstAssert
  /-- `rst` is deasserted (70_reset_and_hazards.md R200). -/
  | rstDeassert
  deriving DecidableEq, Repr

/-- What a host read returned. -/
inductive ReadReply where
  | reg (offset : BitVec 6) (value : Word)
  | byte (addr : Word) (value : Byte)
  deriving DecidableEq, Repr

/-- Buffer memory as (address, byte) pairs in the canonical form of `Memory.wf` (Machine/Ops.lean). -/
abbrev Memory := List Host.Cell

/-- The machine's state. -/
structure State where
  /-- CTRL.IRQ_EN (10_state.md R23). -/
  irqEn : Bool
  /-- STATUS.BUSY (10_state.md R25). -/
  busy : Bool
  /-- STATUS.DONE (10_state.md R26). -/
  done : Bool
  /-- STATUS.FATAL (10_state.md R27). -/
  fatal : Bool
  /-- STATUS.ERR (10_state.md R28). -/
  err : BitVec 4
  /-- ARG (10_state.md R30). -/
  arg : Word
  /-- RESULT (10_state.md R31). -/
  result : Word
  /-- SRC (10_state.md R32). -/
  src : Word
  /-- DST (10_state.md R33). -/
  dst : Word
  /-- LEN (10_state.md R34). -/
  len : Word
  /-- Hidden `in_flight` (10_state.md R41). -/
  inFlight : Bool
  /-- Hidden `cur_cmd` (10_state.md R41). -/
  curCmd : Word
  /-- Buffer memory (20_memory.md R60). -/
  mem : Memory
  /-- MEM_SIZE, the platform's parameter (20_memory.md R60); no step changes it. -/
  memSize : Nat
  /-- The level of the reset input (70_reset_and_hazards.md R200). -/
  rst : Bool
  /-- The events to come, oldest first (log 2). -/
  inputs : List Event
  /-- What the last host read returned (log 6). -/
  lastRead : Option ReadReply
  /-- The number of free values drawn so far (log 7). -/
  draws : Nat
  /-- The host wrote an input byte of the command in flight (20_memory.md R73, log 8). -/
  inputTampered : Bool
  /-- The output bytes of the command in flight that the host wrote (20_memory.md R73, log 8). -/
  hostWrote : List Nat
  deriving DecidableEq, Repr

/-- The reasons a step stops with a fault. None is raised by a command. -/
inductive Fault where
  /-- Raised by `hostReadByte` and `hostWriteByte`: a host byte access at an address of MEM_SIZE or above, where the spec gives no
  buffer memory (20_memory.md R60, R70). Safe: the machine stops where a platform may have something else (log 9). -/
  | hostOutsideMemory (addr : Word)
  deriving DecidableEq, Repr

/-- The reasons a step is refused. None is raised by a command that has its meaning. -/
inductive Refusal where
  /-- Raised by an arm of `exec` whose command has no meaning yet. Safe: nothing can be proved about it. -/
  | notModelled (mnemonic : String)
  /-- Raised by `hostReadReg` and `hostWriteReg`: an access of the window that is not a naturally aligned 32-bit access "has no
  meaning in this spec: a model refuses it" (10_state.md R36, U3). Safe. -/
  | windowAccess (width : Nat) (offset : BitVec 6)
  deriving DecidableEq, Repr

/-- The machine right after reset (10_state.md R44; 70_reset_and_hazards.md R201), `rst` deasserted, no event pending. The spec
gives every register of the window its value; `curCmd` (log 3), the memory (log 4), `memSize` (log 5) and the model's own fields
(logs 2, 6, 7, 8) are DESIGN CHOICE. -/
def State.reset : State where
  irqEn := false
  busy := false
  done := false
  fatal := false
  err := 0
  arg := 0
  result := 0
  src := 0
  dst := 0
  len := 0
  inFlight := false
  curCmd := 0
  mem := []
  memSize := Config.resetMemSize
  rst := false
  inputs := []
  lastRead := none
  draws := 0
  inputTampered := false
  hostWrote := []

end Sys2Proof.Machine
end

