-- ==== Sys2Proof/Machine/Flags.lean ====
section
/-! DEFINITION. The status and control words, the error codes and the interrupt output (10_state.md R22 to R28, R38;
60_exceptions.md R171). -/

namespace Sys2Proof.Machine

/-- The errors `raise` of 60_exceptions.md R174 ends a command with. InternalConsistencyFault has an operation of its own (R175). -/
inductive CmdError where
  | invalidInput
  | illegalCommand
  | badRange
  deriving DecidableEq, Repr

/-- The code written to STATUS.ERR (60_exceptions.md R171). -/
def CmdError.code : CmdError → BitVec 4
  | .invalidInput => 1
  | .illegalCommand => 3
  | .badRange => 4

/-- The code of InternalConsistencyFault (60_exceptions.md R171). -/
def inconsistencyCode : BitVec 4 := 2

/-- A flag as a bit of a register, at bit n. -/
def bitAt (b : Bool) (n : Nat) : Word := (BitVec.ofBool b).setWidth 32 <<< n

/-- ID, hard-wired: SCHEME, VERSION, N, K (10_state.md R22). -/
def idWord : Word := 0x01#8 ++ 0x01#8 ++ 0x0C#8 ++ 0x08#8

/-- CTRL as the host reads it (10_state.md R23). -/
def State.ctrlWord (s : State) : Word := bitAt s.irqEn 0

/-- STATUS as the host reads it (10_state.md R24). -/
def State.statusWord (s : State) : Word :=
  bitAt s.busy 0 ||| bitAt s.done 1 ||| bitAt s.fatal 2 ||| (s.err.setWidth 32 <<< 4)

/-- The interrupt output (10_state.md R38). -/
def State.irq (s : State) : Bool := s.done && s.irqEn

end Sys2Proof.Machine
end

