-- ==== Sys2Proof/Machine/Ops.lean ====
section
/-! DEFINITION. The named operations over memory and registers: bytes of buffer memory (20_memory.md R62, R65), accepting a command
(60_exceptions.md R178), ending one with a result or with an error (R174 to R176), and the core's reset (70_reset_and_hazards.md
R200). An error is the hardware's only exception; nothing returns from it (R170, R180). -/

namespace Sys2Proof.Machine

/-! ### Buffer memory -/

/-- What an address that is not listed reads as. The spec gives the initial content of buffer memory no value (20_memory.md R60).
DESIGN CHOICE, unsafe, log 4. -/
def Memory.unlisted : Byte := 0

/-- The canonical form: addresses strictly rising, all above `lo`'s bound, no entry equal to `Memory.unlisted`. -/
def Memory.wfFrom : Nat → Memory → Bool
  | _, [] => true
  | lo, (a, v) :: rest => decide (lo ≤ a) && v != Memory.unlisted && Memory.wfFrom (a + 1) rest

/-- The canonical form of a memory. -/
def Memory.wf (m : Memory) : Bool := Memory.wfFrom 0 m

/-- Every listed address is below n. -/
def Memory.below (n : Nat) (m : Memory) : Bool := m.all fun c => decide (c.1 < n)

/-- `MemRead(a, 1)` (20_memory.md R62). -/
def Memory.read : Memory → Nat → Byte
  | [], _ => Memory.unlisted
  | (k, v) :: rest, a => if a = k then v else Memory.read rest a

/-- `MemWrite(a, 1, v)` (20_memory.md R62), keeping the canonical form. -/
def Memory.write : Memory → Nat → Byte → Memory
  | [], a, v => if v = Memory.unlisted then [] else [(a, v)]
  | (k, u) :: rest, a, v =>
    if a < k then (if v = Memory.unlisted then (k, u) :: rest else (a, v) :: (k, u) :: rest)
    else if a = k then (if v = Memory.unlisted then rest else (a, v) :: rest)
    else (k, u) :: Memory.write rest a v

/-- The n bytes from base on, element i at address base + i (20_memory.md R65). -/
def Memory.readBytes (m : Memory) (base : Nat) : Nat → List Byte
  | 0 => []
  | n + 1 => m.read base :: Memory.readBytes m (base + 1) n

/-- The bytes written from base on, in ascending address order, each once (20_memory.md R65, R74). -/
def Memory.writeBytes (m : Memory) (base : Nat) : List Byte → Memory
  | [] => m
  | v :: vs => Memory.writeBytes (m.write base v) (base + 1) vs

/-! ### Output bytes while the host breaks its ownership duty -/

/-- The value an output byte at address a has when the command writes v there: unspecified if the host wrote an input byte, the
host's value or v if the host wrote this output byte (20_memory.md R73, U8, U9). -/
def State.settleByte (s : State) (a : Nat) (v : Byte) : Byte :=
  if s.inputTampered then Config.freeByte s.draws a
  else if s.hostWrote.contains a then (if Config.freePick s.draws a then v else s.mem.read a)
  else v

/-- `settleByte` along an output from base on. -/
def State.settle (s : State) (base : Nat) : List Byte → List Byte
  | [] => []
  | v :: vs => s.settleByte base v :: State.settle s (base + 1) vs

/-- n unspecified bytes for the addresses from base on (60_exceptions.md R175, U10). -/
def State.freeBytes (s : State) (base : Nat) : Nat → List Byte
  | 0 => []
  | n + 1 => Config.freeByte s.draws base :: State.freeBytes s (base + 1) n

/-! ### Starting and ending a command -/

/-- The actions of an accepted CMD write of w (60_exceptions.md R178): ERR and DONE cleared, BUSY and `in_flight` set, the word
latched. The bookkeeping of the ownership duty starts afresh. -/
def State.latch (w : Word) (s : State) : State :=
  { s with
    err := 0, done := false, busy := true, inFlight := true, curCmd := w, inputTampered := false, hostWrote := [] }

/-- `accept(w)` (60_exceptions.md R178): ignored while FATAL or BUSY. -/
def State.accept (w : Word) (s : State) : State :=
  if s.fatal then s else if s.busy then s else s.latch w

/-- What every end of a command does (60_exceptions.md R174 to R176): BUSY and `in_flight` cleared, DONE set. `cur_cmd` is
unspecified from here on (10_state.md R41): a free value, log 7. -/
def State.endCommand (s : State) : State :=
  { s with
    busy := false, done := true, inFlight := false, curCmd := Config.freeWord s.draws, draws := s.draws + 1,
    inputTampered := false, hostWrote := [] }

/-- `complete(result)` (60_exceptions.md R176); no result is given for NOP. -/
def State.complete (r : Option Word) (s : State) : State :=
  { s.endCommand with err := 0, result := r.getD s.result }

/-- `raise E` for E other than InternalConsistencyFault (60_exceptions.md R174). -/
def State.raise (e : CmdError) (s : State) : State :=
  { s.endCommand with err := e.code }

/-- `raise InternalConsistencyFault` for a command with the output range [base, base + n) (60_exceptions.md R175). -/
def State.raiseInconsistent (base n : Nat) (s : State) : State :=
  { s.endCommand with
    err := inconsistencyCode, fatal := true, mem := s.mem.writeBytes base (s.freeBytes base n) }

/-- How a command ends, computed from the state at its start. -/
inductive CmdEnd where
  /-- `complete(result)` after writing `out` from address `base` on. -/
  | complete (result : Option Word) (base : Nat) (out : List Byte)
  /-- `raise e`, nothing written. -/
  | raise (e : CmdError)
  /-- The length postcondition fails (41_message_packer.md R143), with the output range [base, base + size). -/
  | inconsistent (base size : Nat)
  deriving DecidableEq, Repr

/-- The command ends: its output written, then the completion actions (60_exceptions.md R174 to R176). -/
def State.finish (e : CmdEnd) (s : State) : State :=
  match e with
  | .complete r base out => State.complete r { s with mem := s.mem.writeBytes base (s.settle base out) }
  | .raise e => s.raise e
  | .inconsistent base n => s.raiseInconsistent base n

/-! ### Reset -/

/-- Every register and hidden state takes its reset value (70_reset_and_hazards.md R200, 10_state.md R44); buffer memory and ID do
not change (R203). `cur_cmd` takes the value of log 3. -/
def State.resetCore (s : State) : State :=
  { s with
    irqEn := false, busy := false, done := false, fatal := false, err := 0, arg := 0, result := 0, src := 0, dst := 0, len := 0,
    inFlight := false, curCmd := 0, inputTampered := false, hostWrote := [] }

end Sys2Proof.Machine
end

