-- ==== Sys2Proof/Machine/Codec.lean ====
section
/-! DEFINITION. The symbol codec: the pure functions of the hamming_encoder and hamming_decoder units (40_symbol_codec.md R100 to
R112), and the bit operators they use (00_scope.md R8, R10). -/

namespace Sys2Proof.Machine

/-- How many of the bits 0 .. n-1 of `f` are set. -/
def countBits (f : Nat → Bool) : Nat → Nat
  | 0 => 0
  | n + 1 => countBits f n + (f n).toNat

/-- `popcount(x)`: the number of set bits (00_scope.md R10). -/
def popcount {w : Nat} (x : BitVec w) : Nat := countBits x.getLsbD w

/-- `parity(x) = popcount(x) mod 2` (00_scope.md R10), as a bit. -/
def parity {w : Nat} (x : BitVec w) : Bool := popcount x % 2 == 1

/-- `bdot(x, m) = parity(x & m)` (00_scope.md R10). -/
def bdot {w : Nat} (x m : BitVec w) : Bool := parity (x &&& m)

/-- The coverage masks M1, M2, M4, M8 (R103). -/
def maskM1 : Byte := 0xDA
def maskM2 : Byte := 0xB6
def maskM4 : Byte := 0x71
def maskM8 : Byte := 0x0F

/-- The syndrome masks S1, S2, S4, S8 (R102). -/
def maskS1 : Symbol := 0xAAA
def maskS2 : Symbol := 0x666
def maskS4 : Symbol := 0x1E1
def maskS8 : Symbol := 0x01F

/-- `encode12(d)` (R104): P1 P2 d[7] P4 d[6:4] P8 d[3:0], most-significant bit first (the layout of R100). -/
def encode12 (d : Byte) : Symbol :=
  BitVec.ofBool (bdot d maskM1) ++ BitVec.ofBool (bdot d maskM2) ++ d.extractLsb' 7 1 ++ BitVec.ofBool (bdot d maskM4)
    ++ d.extractLsb' 4 3 ++ BitVec.ofBool (bdot d maskM8) ++ d.extractLsb' 0 4

/-- `syndrome(c)`: the index z = 8·s8 + 4·s4 + 2·s2 + s1 (R105). -/
def syndrome (c : Symbol) : Nat :=
  (bdot c maskS8).toNat * 8 + (bdot c maskS4).toNat * 4 + (bdot c maskS2).toNat * 2 + (bdot c maskS1).toNat

/-- `extract(c) = {c[9], c[7:5], c[3:0]}` (R106). -/
def extract (c : Symbol) : Byte :=
  c.extractLsb' 9 1 ++ c.extractLsb' 5 3 ++ c.extractLsb' 0 4

/-- The symbol with bit q flipped. -/
def flipBit (c : Symbol) (q : Nat) : Symbol := c ^^^ (1#12 <<< q)

/-- The correction of R107: position z, bit 12 − z, is flipped for z = 1 .. 12; z = 0 and z = 13, 14, 15 pass through. -/
def correct (c : Symbol) : Symbol :=
  if syndrome c = 0 then c
  else if syndrome c ≤ 12 then flipBit c (12 - syndrome c)
  else c

/-- `decode12(c)` (R107). -/
def decode12 (c : Symbol) : Byte := extract (correct c)

end Sys2Proof.Machine
end

