-- ==== Sys2Proof/Machine/Packer.lean ====
section
/-! DEFINITION. The bitstream packer: the pure functions of 41_message_packer.md (R130 to R142) and the container image of
20_memory.md R66. -/

namespace Sys2Proof.Machine

/-- `enc_len(L)` (R130). -/
def encLen (l : Nat) : Nat := 3 * (l / 2) + (if l % 2 = 1 then 2 else 0)

/-- The low byte of a symbol, s[7:0]. -/
def lowByte (s : Symbol) : Byte := s.extractLsb' 0 8

/-- The high nibble of a symbol, s[11:8]. -/
def highNibble (s : Symbol) : BitVec 4 := s.extractLsb' 8 4

/-- `{nibble, byte}`: the symbol put together again (R137). -/
def joinSymbol (hi : BitVec 4) (lo : Byte) : Symbol := hi ++ lo

/-- `{nibble, nibble}`: the byte two symbols share (R134, R135). -/
def joinNibbles (hi lo : BitVec 4) : Byte := hi ++ lo

/-- The low nibble of a byte, v[3:0]. -/
def loNibble (v : Byte) : BitVec 4 := v.extractLsb' 0 4

/-- The high nibble of a byte, v[7:4]. -/
def hiNibble (v : Byte) : BitVec 4 := v.extractLsb' 4 4

/-- `pack(S)` (R134): the pair layout of R135, the tail layout of R136. -/
def packSymbols : List Symbol → List Byte
  | a :: b :: rest => lowByte a :: lowByte b :: joinNibbles (highNibble b) (highNibble a) :: packSymbols rest
  | [t] => [lowByte t, (highNibble t).setWidth 8]
  | [] => []

/-- `unpack(B, N)` (R137); the upper nibble of the tail's second byte is ignored (R138). A byte sequence too short for N gives too
few symbols, which the length postcondition of R143 catches. -/
def unpackBytes : List Byte → Nat → List Symbol
  | _, 0 => []
  | lo :: hi :: _, 1 => [joinSymbol (loNibble hi) lo]
  | a :: b :: c :: rest, n + 2 =>
    joinSymbol (loNibble c) a :: joinSymbol (hiNibble c) b :: unpackBytes rest n
  | _, _ => []

/-- `encode_message(D)` (R141). -/
def encodeMessage (d : List Byte) : List Byte := packSymbols (d.map encode12)

/-- `decode_message(B, L)` (R142). -/
def decodeMessage (b : List Byte) (l : Nat) : List Byte := (unpackBytes b l).map decode12

/-- The two bytes `container_write` stores for one symbol, lower address first, upper nibble 0 (20_memory.md R66). -/
def containerBytes (s : Symbol) : List Byte := [lowByte s, (highNibble s).setWidth 8]

/-- The bytes of a sequence of containers (20_memory.md R66). -/
def containersImage : List Symbol → List Byte
  | [] => []
  | s :: rest => containerBytes s ++ containersImage rest

/-- The container value `{hi, lo}` (20_memory.md R66, `container_read`). -/
def joinContainer (hi lo : Byte) : Container := hi ++ lo

end Sys2Proof.Machine
end

