-- ==== Sys2Proof/Machine/Operands.lean ====
section
/-! DEFINITION. The operands of the commands: the fixed operand registers (30_encoding.md R85), the count limit
(41_message_packer.md R133), the ranges in buffer memory (20_memory.md R63, R64) and the containers (R66). -/

namespace Sys2Proof.Machine

/-- MAX_COUNT (00_scope.md R7). -/
def maxCount : Nat := 2 ^ 32 - 1

/-- `fits(x)` (41_message_packer.md R133). -/
def fits (x : Nat) : Bool := decide (x ≤ maxCount)

/-- `range_ok(base, size)` (20_memory.md R63). -/
def rangeOk (memSize base size : Nat) : Bool := size == 0 || decide (base + size ≤ memSize)

/-- `overlap(a, m, b, n)` (20_memory.md R64). -/
def overlap (a m b n : Nat) : Bool := decide (0 < m) && decide (0 < n) && decide (a < b + n) && decide (b < a + m)

/-- The input range and the output range of a memory command (20_memory.md R63). -/
structure Ranges where
  src : Nat
  srcSize : Nat
  dst : Nat
  dstSize : Nat
  deriving DecidableEq, Repr

/-- Address a lies in the input range. -/
def Ranges.inputHas (r : Ranges) (a : Nat) : Bool := decide (r.src ≤ a) && decide (a < r.src + r.srcSize)

/-- Address a lies in the output range. -/
def Ranges.outputHas (r : Ranges) (a : Nat) : Bool := decide (r.dst ≤ a) && decide (a < r.dst + r.dstSize)

/-- The ranges of a command that reads m bytes at SRC and writes n bytes at DST, if all checks pass, in the order of
60_exceptions.md R177 items 2 to 5; none is BadRange. -/
def State.ranges (s : State) (m n : Nat) : Option Ranges :=
  if !fits m || !fits n then none
  else if !rangeOk s.memSize s.src.toNat m then none
  else if !rangeOk s.memSize s.dst.toNat n then none
  else if overlap s.src.toNat m s.dst.toNat n then none
  else some ⟨s.src.toNat, m, s.dst.toNat, n⟩

/-- The n containers from base on: `container_read(base, i)` for i = 0 .. n-1 (20_memory.md R66). -/
def Memory.readContainers (m : Memory) (base : Nat) : Nat → List Container
  | 0 => []
  | n + 1 => joinContainer (m.read (base + 1)) (m.read base) :: Memory.readContainers m (base + 2) n

/-- A container value that is no symbol (41_message_packer.md R145). -/
def Container.tooWide (c : Container) : Bool := decide (2 ^ 12 ≤ c.toNat)

/-- The symbol of a container value below 2^12 (41_message_packer.md R145). -/
def Container.symbol (c : Container) : Symbol := c.setWidth 12

/-- A natural number as a register's value; the command has checked that it is below 2^32 (00_scope.md R9). -/
def toReg (n : Nat) : Word := BitVec.ofNat 32 n

end Sys2Proof.Machine
end

