-- ==== Sys2Proof/Machine/Messages.lean ====
section
/-! DEFINITION. The packer and message commands: ENC_MSG, DEC_MSG, PACK, UNPACK, ENC_LEN (41_message_packer.md R145 to R149). For
each memory command: its ranges once the checks pass, how it ends, and the command. -/

namespace Sys2Proof.Machine

/-- The end of a memory command that produced `out`, after the length postcondition `check_len(actual, expected)`
(41_message_packer.md R143). -/
def checkedEnd (r : Ranges) (actual expected result : Nat) (out : List Byte) : CmdEnd :=
  if actual = expected then .complete (some (toReg result)) r.dst out else .inconsistent r.dst r.dstSize

/-- The ranges of ENC_MSG: LEN bytes in, enc_len(LEN) bytes out (R147). LEN itself always fits. -/
def encMsgRanges (s : State) : Option Ranges := s.ranges s.len.toNat (encLen s.len.toNat)

/-- The ranges of DEC_MSG: enc_len(LEN) bytes in, LEN bytes out (R148). -/
def decMsgRanges (s : State) : Option Ranges := s.ranges (encLen s.len.toNat) s.len.toNat

/-- The ranges of PACK: LEN containers in, enc_len(LEN) bytes out (R145). -/
def packRanges (s : State) : Option Ranges := s.ranges (2 * s.len.toNat) (encLen s.len.toNat)

/-- The ranges of UNPACK: enc_len(LEN) bytes in, LEN containers out (R146). -/
def unpackRanges (s : State) : Option Ranges := s.ranges (encLen s.len.toNat) (2 * s.len.toNat)

/-- How ENC_MSG ends (R147). -/
def planEncMsg (s : State) : CmdEnd :=
  match encMsgRanges s with
  | none => .raise .badRange
  | some r =>
    let out := encodeMessage (s.mem.readBytes r.src s.len.toNat)
    checkedEnd r out.length (encLen s.len.toNat) (encLen s.len.toNat) out

/-- How DEC_MSG ends (R148). -/
def planDecMsg (s : State) : CmdEnd :=
  match decMsgRanges s with
  | none => .raise .badRange
  | some r =>
    let symbols := unpackBytes (s.mem.readBytes r.src (encLen s.len.toNat)) s.len.toNat
    checkedEnd r symbols.length s.len.toNat s.len.toNat (symbols.map decode12)

/-- The containers PACK reads (R145). -/
def packContainers (s : State) : List Container := s.mem.readContainers s.src.toNat s.len.toNat

/-- PACK's validation pass finds a container of 2^12 or above (R145). If the host wrote an input byte while PACK was in flight, the
outcome is unspecified (20_memory.md R73, U8): a free value. -/
def packRefuses (s : State) : Bool :=
  if s.inputTampered then Config.freeRefusal s.draws else (packContainers s).any Container.tooWide

/-- How PACK ends (R145). -/
def planPack (s : State) : CmdEnd :=
  match packRanges s with
  | none => .raise .badRange
  | some r =>
    if packRefuses s then .raise .invalidInput
    else
      let out := packSymbols ((packContainers s).map Container.symbol)
      checkedEnd r out.length (encLen s.len.toNat) (encLen s.len.toNat) out

/-- How UNPACK ends (R146). -/
def planUnpack (s : State) : CmdEnd :=
  match unpackRanges s with
  | none => .raise .badRange
  | some r =>
    let symbols := unpackBytes (s.mem.readBytes r.src (encLen s.len.toNat)) s.len.toNat
    checkedEnd r symbols.length s.len.toNat (2 * s.len.toNat) (containersImage symbols)

/-- How ENC_LEN ends (R149). -/
def planEncLen (s : State) : CmdEnd :=
  if fits (encLen s.len.toNat) then .complete (some (toReg (encLen s.len.toNat))) 0 [] else .raise .badRange

/-- ENC_MSG (R147). -/
def execEncMsg (s : State) : Host.Outcome State Fault Refusal := .next (s.finish (planEncMsg s))

/-- DEC_MSG (R148). -/
def execDecMsg (s : State) : Host.Outcome State Fault Refusal := .next (s.finish (planDecMsg s))

/-- PACK (R145). -/
def execPack (s : State) : Host.Outcome State Fault Refusal := .next (s.finish (planPack s))

/-- UNPACK (R146). -/
def execUnpack (s : State) : Host.Outcome State Fault Refusal := .next (s.finish (planUnpack s))

/-- ENC_LEN (R149). -/
def execEncLen (s : State) : Host.Outcome State Fault Refusal := .next (s.finish (planEncLen s))

end Sys2Proof.Machine
end

