-- ==== Sys2Proof/Machine/Symbols.lean ====
section
/-! DEFINITION. The symbol commands: NOP, ENC_SYM, DEC_SYM (40_symbol_codec.md R113 to R115). -/

namespace Sys2Proof.Machine

/-- How NOP ends (R115): `complete(-)`. -/
def planNop (_s : State) : CmdEnd := .complete none 0 []

/-- How ENC_SYM ends (R113). -/
def planEncSym (s : State) : CmdEnd :=
  if 2 ^ 8 ≤ s.arg.toNat then .raise .invalidInput
  else .complete (some ((encode12 (s.arg.extractLsb' 0 8)).setWidth 32)) 0 []

/-- How DEC_SYM ends (R114). -/
def planDecSym (s : State) : CmdEnd :=
  if 2 ^ 12 ≤ s.arg.toNat then .raise .invalidInput
  else .complete (some ((decode12 (s.arg.extractLsb' 0 12)).setWidth 32)) 0 []

/-- NOP (R115). -/
def execNop (s : State) : Host.Outcome State Fault Refusal := .next (s.finish (planNop s))

/-- ENC_SYM (R113). -/
def execEncSym (s : State) : Host.Outcome State Fault Refusal := .next (s.finish (planEncSym s))

/-- DEC_SYM (R114). -/
def execDecSym (s : State) : Host.Outcome State Fault Refusal := .next (s.finish (planDecSym s))

end Sys2Proof.Machine
end

