-- ==== Sys2Proof/Machine/Flight.lean ====
section
/-! DEFINITION. The command in flight as the host and reset can meet it before it ends: its ranges, and the bytes it would write
(20_memory.md R73, 70_reset_and_hazards.md R202). -/

namespace Sys2Proof.Machine

/-- The ranges of a command that reaches buffer memory; none for a command that does not, or that ends with BadRange. -/
def rangesOf (i : Instr) (s : State) : Option Ranges :=
  match i with
  | .nop | .encSym | .decSym | .encLen => none
  | .encMsg => encMsgRanges s
  | .decMsg => decMsgRanges s
  | .pack => packRanges s
  | .unpack => unpackRanges s

/-- How a command ends. -/
def planOf (i : Instr) (s : State) : CmdEnd :=
  match i with
  | .nop => planNop s
  | .encSym => planEncSym s
  | .decSym => planDecSym s
  | .encMsg => planEncMsg s
  | .decMsg => planDecMsg s
  | .pack => planPack s
  | .unpack => planUnpack s
  | .encLen => planEncLen s

/-- The command in flight; none when the core is idle or the word in flight is illegal. -/
def State.flight (s : State) : Option Instr := if s.inFlight then (decodeCmd s.curCmd).toOption else none

/-- The ranges of the command in flight. -/
def State.flightRanges (s : State) : Option Ranges := s.flight.bind (rangesOf · s)

/-- Where the command in flight writes, and the bytes it writes there. -/
def State.flightOutput (s : State) : Option (Nat × List Byte) :=
  match s.flight with
  | none => none
  | some i =>
    match planOf i s with
    | .complete _ base out => some (base, s.settle base out)
    | .raise _ => none
    | .inconsistent base n => some (base, s.freeBytes base n)

/-- The byte the command in flight writes at address a, if a is one of its output bytes. -/
def State.flightByte (s : State) (a : Nat) : Option Byte :=
  match s.flightOutput with
  | none => none
  | some (base, out) => if base ≤ a then out[a - base]? else none

end Sys2Proof.Machine
end

