-- ==== Sys2Proof/Machine/Bus.lean ====
section
/-! DEFINITION. The host's accesses: the register window (10_state.md R21 to R37) and the bytes of buffer memory (20_memory.md R60,
R69, R73). -/

namespace Sys2Proof.Machine

/-- The register a window access names; none for an access that is not a naturally aligned 32-bit access (10_state.md R21, R36). -/
def regAt (width : Nat) (offset : BitVec 6) : Option Reg :=
  if width ≠ 4 ∨ offset.toNat % 4 ≠ 0 then none
  else
    match offset.toNat with
    | 0x00 => some .id
    | 0x04 => some .ctrl
    | 0x08 => some .status
    | 0x0C => some .cmd
    | 0x10 => some .arg
    | 0x14 => some .result
    | 0x18 => some .src
    | 0x1C => some .dst
    | 0x20 => some .len
    | _ => some .reserved

/-- What a register reads as (10_state.md R21 to R35). -/
def State.readReg (s : State) (r : Reg) : Word :=
  match r with
  | .id => idWord
  | .ctrl => s.ctrlWord
  | .status => s.statusWord
  | .cmd => 0
  | .arg => s.arg
  | .result => s.result
  | .src => s.src
  | .dst => s.dst
  | .len => s.len
  | .reserved => 0

/-- The effect of a host write of w to a register (10_state.md R37). -/
def State.writeReg (s : State) (r : Reg) (w : Word) : State :=
  match r with
  | .id => s
  | .ctrl => { s with irqEn := w.getLsbD 0 }
  | .status => if w.getLsbD 1 then { s with done := false } else s
  | .cmd => s.accept w
  | .arg => if s.busy then s else { s with arg := w }
  | .result => s
  | .src => if s.busy then s else { s with src := w }
  | .dst => if s.busy then s else { s with dst := w }
  | .len => if s.busy then s else { s with len := w }
  | .reserved => s

/-- A host read of the window (10_state.md R36). While `rst` is asserted the value is unspecified (70_reset_and_hazards.md R200, U4). -/
def hostReadReg (width : Nat) (offset : BitVec 6) (s : State) : Host.Outcome State Fault Refusal :=
  match regAt width offset with
  | none => .refused (.windowAccess width offset)
  | some r =>
    if s.rst then .next { s with lastRead := some (.reg offset (Config.freeWord s.draws)), draws := s.draws + 1 }
    else .next { s with lastRead := some (.reg offset (s.readReg r)) }

/-- A host write of the window (10_state.md R36, R37). While `rst` is asserted it has no effect (70_reset_and_hazards.md R200). -/
def hostWriteReg (width : Nat) (offset : BitVec 6) (w : Word) (s : State) : Host.Outcome State Fault Refusal :=
  match regAt width offset with
  | none => .refused (.windowAccess width offset)
  | some r => if s.rst then .next s else .next (s.writeReg r w)

/-- A host read of a byte of buffer memory. A byte the command in flight writes reads as its old or its new value (20_memory.md
R73, U7). -/
def hostReadByte (addr : Word) (s : State) : Host.Outcome State Fault Refusal :=
  if s.memSize ≤ addr.toNat then .fault (.hostOutsideMemory addr)
  else
    match s.flightByte addr.toNat with
    | none => .next { s with lastRead := some (.byte addr (s.mem.read addr.toNat)) }
    | some v =>
      .next { s with
        lastRead := some (.byte addr (if Config.freePick s.draws addr.toNat then v else s.mem.read addr.toNat)),
        draws := s.draws + 1 }

/-- A host write of a byte of buffer memory. A write to a range of the command in flight breaks the ownership duty; what that leaves
open is recorded for the command's end (20_memory.md R73, U8, U9). -/
def hostWriteByte (addr : Word) (v : Byte) (s : State) : Host.Outcome State Fault Refusal :=
  if s.memSize ≤ addr.toNat then .fault (.hostOutsideMemory addr)
  else
    match s.flightRanges with
    | none => .next { s with mem := s.mem.write addr.toNat v }
    | some r =>
      .next { s with
        mem := s.mem.write addr.toNat v,
        inputTampered := s.inputTampered || r.inputHas addr.toNat,
        hostWrote := if r.outputHas addr.toNat then addr.toNat :: s.hostWrote else s.hostWrote }

end Sys2Proof.Machine
end

