-- ==== Sys2Proof/Machine/Dispatch.lean ====
section
/-! DEFINITION. The meaning of each command, one arm a constructor (30_encoding.md R82). -/

namespace Sys2Proof.Machine

def exec (i : Instr) (s : State) : Host.Outcome State Fault Refusal :=
  match i with
  | .nop => Sys2Proof.Machine.execNop s
  | .encSym => Sys2Proof.Machine.execEncSym s
  | .decSym => Sys2Proof.Machine.execDecSym s
  | .encMsg => Sys2Proof.Machine.execEncMsg s
  | .decMsg => Sys2Proof.Machine.execDecMsg s
  | .pack => Sys2Proof.Machine.execPack s
  | .unpack => Sys2Proof.Machine.execUnpack s
  | .encLen => Sys2Proof.Machine.execEncLen s

end Sys2Proof.Machine
end

