-- ==== Sys2Proof/Machine/Reset.lean ====
section
/-! DEFINITION. The reset input (70_reset_and_hazards.md R200 to R203). -/

namespace Sys2Proof.Machine

/-- The bytes an abandoned command leaves from base on: each the value it would have written or the value before, independently
per byte (R202, U6). -/
def State.landed (s : State) (base : Nat) : List Byte → List Byte
  | [] => []
  | v :: vs => (if Config.freeLanded s.draws base then v else s.mem.read base) :: State.landed s (base + 1) vs

/-- Reset abandons the command in flight (R202). -/
def State.abandon (s : State) : State :=
  match s.flightOutput with
  | none => s
  | some (base, out) => { s with mem := s.mem.writeBytes base (s.landed base out), draws := s.draws + 1 }

/-- `rst` is asserted (R200, R202, R203). -/
def rstAssert (s : State) : Host.Outcome State Fault Refusal :=
  .next { s.abandon.resetCore with rst := true }

/-- `rst` is deasserted; "at its deassertion" too every register takes its reset value (R200). Without an assertion before it there
is no edge. -/
def rstDeassert (s : State) : Host.Outcome State Fault Refusal :=
  if s.rst then .next { s.resetCore with rst := false } else .next s

end Sys2Proof.Machine
end

