-- ==== Sys2Proof/Machine/Turn.lean ====
section
/-! DEFINITION. Whose turn it is: the core performs the command in flight, or an event of the host or of `rst` happens. -/

namespace Sys2Proof.Machine

/-- The core performs the word in `cur_cmd`: decoded (30_encoding.md R83), then the command's meaning; an illegal word ends with
IllegalCommand (R84). -/
def runWord (w : Word) (s : State) : Host.Outcome State Fault Refusal :=
  match decodeCmd w with
  | .ok i => exec i s
  | .error _ => .next (s.raise .illegalCommand)

/-- The core's turn: it runs the command in flight to its end (20_memory.md R74); an idle core waits (60_exceptions.md R188), and so
does a core held in reset (70_reset_and_hazards.md R200). -/
def coreTurn (s : State) : Host.Outcome State Fault Refusal :=
  if s.rst then .next s else if s.inFlight then runWord s.curCmd s else .next s

/-- One event happens. -/
def happen (e : Event) (s : State) : Host.Outcome State Fault Refusal :=
  match e with
  | .core => coreTurn s
  | .regRead width offset => hostReadReg width offset s
  | .regWrite width offset w => hostWriteReg width offset w s
  | .memRead addr => hostReadByte addr s
  | .memWrite addr v => hostWriteByte addr v s
  | .rstAssert => rstAssert s
  | .rstDeassert => rstDeassert s

end Sys2Proof.Machine
end

