-- ==== Sys2Proof/Machine/Step.lean ====
section
/-! DEFINITION. One step: the oldest pending event happens; with none pending it is the core's turn (70_reset_and_hazards.md R211:
"an in-flight command eventually completes"). And how a test places a command where the next step runs it. -/

namespace Sys2Proof.Machine

/-- One step of the machine. -/
def step (s : State) : Host.Outcome State Fault Refusal :=
  match s.inputs with
  | [] => coreTurn s
  | e :: rest => happen e { s with inputs := rest }

/-- The word w accepted in `cur_cmd` with the core's turn next, as after a host write of w to CMD (60_exceptions.md R178; the core
fetches nothing: 10_state.md R40, log 1). -/
def State.withFetchWord (s : State) (nbits w : Nat) : State :=
  State.latch (BitVec.ofNat 32 (w % 2 ^ nbits)) { s with rst := false, inputs := .core :: s.inputs }

end Sys2Proof.Machine
end

