-- ==== Sys2Proof/Safety.lean ====
section
/-! DEFINITION. What counts as a safe run, in the terms the statements use: the machine's invariant, the host's duties, and the shapes
of a command's end. -/

namespace Sys2Proof.Machine

/-- Every register and hidden state of the core has its reset value (10_state.md R44; `cur_cmd` is unspecified there and left out). -/
structure State.AtReset (s : State) : Prop where
  irqEn : s.irqEn = false
  busy : s.busy = false
  done : s.done = false
  fatal : s.fatal = false
  err : s.err = 0
  arg : s.arg = 0
  result : s.result = 0
  src : s.src = 0
  dst : s.dst = 0
  len : s.len = 0
  inFlight : s.inFlight = false

/-- The host has not broken its ownership duty since the command in flight was accepted (20_memory.md R73). -/
structure State.Untouched (s : State) : Prop where
  input : s.inputTampered = false
  output : s.hostWrote = []

/-- The machine's invariant. -/
structure State.Inv (s : State) : Prop where
  /-- Buffer memory keeps its canonical form (log 4). -/
  mem_wf : s.mem.wf = true
  /-- No byte outside buffer memory is listed (20_memory.md R60). -/
  mem_below : s.mem.below s.memSize = true
  /-- 1 ≤ MEM_SIZE ≤ 2^32 (20_memory.md R60). -/
  memSize_pos : 1 ≤ s.memSize
  memSize_le : s.memSize ≤ 2 ^ 32
  /-- `in_flight` is "equal to STATUS.BUSY at all times" (10_state.md R41). -/
  inFlight_eq_busy : s.inFlight = s.busy
  /-- Acceptance clears DONE and ERR and needs FATAL = 0 (60_exceptions.md R178). -/
  busy_clear : s.busy = true → s.done = false ∧ s.err = 0 ∧ s.fatal = false
  /-- After InternalConsistencyFault no command is accepted, so ERR stays 2 (60_exceptions.md R175). -/
  fatal_err : s.fatal = true → s.err = inconsistencyCode
  /-- The codes 5 to 15 are never written (60_exceptions.md R171, U17). -/
  err_legal : s.err.toNat ≤ 4
  /-- The ownership bookkeeping concerns a command in flight only. -/
  idle_untouched : s.busy = false → s.Untouched
  /-- While `rst` is asserted the core has its reset values (70_reset_and_hazards.md R200). -/
  held_at_reset : s.rst = true → s.AtReset

/-- An event that has a meaning: a window access that is a naturally aligned 32-bit access (10_state.md R36), a byte access inside
buffer memory (20_memory.md R60); every other event has one. -/
def Event.hasMeaning (memSize : Nat) (e : Event) : Bool :=
  match e with
  | .regRead width offset => width == 4 && offset.toNat % 4 == 0
  | .regWrite width offset _ => width == 4 && offset.toNat % 4 == 0
  | .memRead addr => decide (addr.toNat < memSize)
  | .memWrite addr _ => decide (addr.toNat < memSize)
  | .core | .rstAssert | .rstDeassert => true

/-- The event keeps the host's ownership duty (20_memory.md R73). -/
def State.dutyKept (s : State) (e : Event) : Bool :=
  match s.flightRanges with
  | none => true
  | some r =>
    match e with
    | .memRead addr => !r.outputHas addr.toNat
    | .memWrite addr _ => !r.inputHas addr.toNat && !r.outputHas addr.toNat
    | .core | .regRead _ _ | .regWrite _ _ _ | .rstAssert | .rstDeassert => true

/-- The core's turn comes next: no event is pending, or the pending one is the core's turn. -/
def State.CoreNext (s : State) : Prop := s.inputs = [] ∨ s.inputs.head? = some .core

/-- The bytes a memory command reads and writes for the LEN it is given (30_encoding.md R85). -/
def commandSizes (i : Instr) (n : Nat) : Option (Nat × Nat) :=
  match i with
  | .nop | .encSym | .decSym | .encLen => none
  | .encMsg => some (n, encLen n)
  | .decMsg => some (encLen n, n)
  | .pack => some (2 * n, encLen n)
  | .unpack => some (encLen n, 2 * n)

/-- The checks of 60_exceptions.md R177 items 2 to 5 all pass for a command that reads m bytes at SRC and writes n bytes at DST. -/
structure State.RangesPass (s : State) (m n : Nat) : Prop where
  fits_in : fits m = true
  fits_out : fits n = true
  src_ok : rangeOk s.memSize s.src.toNat m = true
  dst_ok : rangeOk s.memSize s.dst.toNat n = true
  disjoint : overlap s.src.toNat m s.dst.toNat n = false

/-- What no command changes: the operand registers, CTRL, FATAL (its one writer, InternalConsistencyFault, never happens:
41_message_packer.md R143), the platform, and the model's list of pending events and last reply. -/
structure SameAround (s t : State) : Prop where
  irqEn : t.irqEn = s.irqEn
  fatal : t.fatal = s.fatal
  arg : t.arg = s.arg
  src : t.src = s.src
  dst : t.dst = s.dst
  len : t.len = s.len
  memSize : t.memSize = s.memSize
  rst : t.rst = s.rst
  inputs : t.inputs = s.inputs
  lastRead : t.lastRead = s.lastRead

/-- A command that ended (60_exceptions.md R174, R176): BUSY and `in_flight` cleared, DONE set, ERR the code given. -/
structure EndedWith (code : BitVec 4) (t : State) : Prop where
  busy : t.busy = false
  done : t.done = true
  err : t.err = code
  inFlight : t.inFlight = false

/-- A command that ended with an error: STATUS, and nothing else the host can reach, changed (60_exceptions.md R174). -/
structure RefusedWith (code : BitVec 4) (s t : State) : Prop where
  ended : EndedWith code t
  around : SameAround s t
  result : t.result = s.result
  mem : t.mem = s.mem

/-- Every byte of memory outside [base, base + n) reads as before. -/
def SameBytesOutside (base n : Nat) (s t : State) : Prop :=
  ∀ a, ¬(base ≤ a ∧ a < base + n) → t.mem.read a = s.mem.read a

/-- A symbol received with at most one bit flipped. -/
def AtMostOneFlip (sent received : Symbol) : Prop :=
  received = sent ∨ ∃ q, q < 12 ∧ received = flipBit sent q

/-- A sequence of symbols received with at most one bit flipped in each. -/
def AtMostOneFlipEach (sent received : List Symbol) : Prop := List.Forall₂ AtMostOneFlip sent received

/-- A byte sequence with bit i of byte m flipped. -/
def flipByteBit (b : List Byte) (m i : Nat) : List Byte := b.modify m fun v => v ^^^ (1#8 <<< i)

end Sys2Proof.Machine
end

