-- ==== Sys2Proof/Certificates/Slice0/Obligations.lean ====
section
/-! DEFINITION. The statements about the machine, from the numbered rules of spec/. Memory is read byte by byte through
`Memory.read`; a command's end is said through the shapes of Sys2Proof/Safety.lean. -/

open Sys2Proof Sys2Proof.Machine

/-! ### Command words and the step -/

/-- The words of 95_test_vectors.md section 12.1, as 30_encoding.md R82 and R84 write them. -/
def Obligations.SpecWordsDecode : Prop :=
  decodeCmd 0x00000000 = .ok .nop ∧ decodeCmd 0x00000001 = .ok .encSym ∧ decodeCmd 0x00000002 = .ok .decSym ∧
  decodeCmd 0x00000003 = .ok .encMsg ∧ decodeCmd 0x00000004 = .ok .decMsg ∧ decodeCmd 0x00000005 = .ok .pack ∧
  decodeCmd 0x00000006 = .ok .unpack ∧ decodeCmd 0x00000007 = .ok .encLen ∧
  decodeCmd 0x00000008 = .error .reservedOp ∧ decodeCmd 0x0000000F = .error .reservedOp ∧
  decodeCmd 0x00000010 = .error .reservedBits ∧ decodeCmd 0x00000015 = .error .reservedBits ∧
  decodeCmd 0x80000001 = .error .reservedBits ∧ decodeCmd 0xFFFFFFFF = .error .reservedBits

/-- R82, R83: the decoder is total, a word is legal exactly when it is one of the eight words, and the others are rejected by
RSVD first, then by OP. -/
def Obligations.LegalWordsAreTheEight : Prop :=
  (encode .nop = 0 ∧ encode .encSym = 1 ∧ encode .decSym = 2 ∧ encode .encMsg = 3 ∧ encode .decMsg = 4 ∧ encode .pack = 5 ∧
    encode .unpack = 6 ∧ encode .encLen = 7) ∧
  ∀ w : Word,
    (∀ i, decodeCmd w = .ok i ↔ w = encode i) ∧
    ((∃ i, decodeCmd w = .ok i) ↔ w.toNat ≤ 7) ∧
    (decodeCmd w = .error .reservedBits ↔ 16 ≤ w.toNat) ∧
    (decodeCmd w = .error .reservedOp ↔ 8 ≤ w.toNat ∧ w.toNat < 16)

/-- Every command's word decodes to the command, in the machine's words and in the opcode table's numbering. -/
def Obligations.CommandWordsRoundTrip : Prop :=
  ∀ i : Instr, i.wellFormed = true ∧ decodeCmd (encode i) = .ok i ∧ decodeTableWord 32 (encode i).toNat = some i

/-- A step is the oldest pending event, or the core's turn when none is pending; the core's turn runs the decoded command in flight,
and an idle core waits, at an explicit turn too (60_exceptions.md R188). The event list is the model's convention (log 2). -/
def Obligations.StepRunsDecodedCommand : Prop :=
  (∀ (s : State) (i : Instr), s.rst = false → s.inFlight = true → decodeCmd s.curCmd = .ok i →
    (s.inputs = [] → step s = exec i s) ∧
    (∀ rest, s.inputs = .core :: rest → step s = exec i { s with inputs := rest })) ∧
  (∀ s : State, s.inFlight = false →
    (s.inputs = [] → step s = .next s) ∧
    (∀ rest, s.inputs = .core :: rest → step s = .next { s with inputs := rest })) ∧
  (∀ (s : State) (rest : List Event),
    (∀ n o, s.inputs = .regRead n o :: rest → step s = hostReadReg n o { s with inputs := rest }) ∧
    (∀ n o w, s.inputs = .regWrite n o w :: rest → step s = hostWriteReg n o w { s with inputs := rest }) ∧
    (∀ a, s.inputs = .memRead a :: rest → step s = hostReadByte a { s with inputs := rest }) ∧
    (∀ a v, s.inputs = .memWrite a v :: rest → step s = hostWriteByte a v { s with inputs := rest }) ∧
    (s.inputs = .rstAssert :: rest → step s = rstAssert { s with inputs := rest }) ∧
    (s.inputs = .rstDeassert :: rest → step s = rstDeassert { s with inputs := rest }))

/-- The model's convention of how a program comes to run (log 1): a word placed by `withFetchWord` is what the next step runs. -/
def Obligations.FetchWordRunsNext : Prop :=
  ∀ (s : State) (i : Instr),
    step (s.withFetchWord 32 (encode i).toNat) = exec i (State.latch (encode i) { s with rst := false })

/-- 30_encoding.md R84, but for its "at once": that an illegal word ends at the core's turn, before which host events may stand, is
the model's choice (log 2). -/
def Obligations.IllegalWordEndsAtCoreTurn : Prop :=
  (∀ w : Word, (¬∃ i, decodeCmd w = .ok i) ↔ 8 ≤ w.toNat) ∧
  (∀ s : State, s.rst = false → s.inFlight = true → 8 ≤ s.curCmd.toNat →
    (s.inputs = [] → ∃ t, step s = .next t ∧ RefusedWith 3 s t) ∧
    (∀ rest, s.inputs = .core :: rest → ∃ t, step s = .next t ∧ RefusedWith 3 { s with inputs := rest } t)) ∧
  (∀ s : State, ∃ t, exec .nop s = .next t ∧ EndedWith 0 t ∧ SameAround s t ∧ t.result = s.result ∧ t.mem = s.mem) ∧
  (∀ (s : State) (w : Word), s.fatal = true ∨ s.busy = true → hostWriteReg 4 0x0C w s = .next s)

/-! ### The symbol codec -/

/-- R100, R104: the layout of a codeword, bit by bit, the formula, and the worked example. -/
def Obligations.EncoderLayout : Prop :=
  encode12 0x5A = 0x0AA ∧ encode12 0x00 = 0x000 ∧ encode12 0xFF = 0xEEF ∧
  ∀ d : Byte,
    let c := encode12 d
    (c.getLsbD 11 = bdot d 0xDA ∧ c.getLsbD 10 = bdot d 0xB6 ∧ c.getLsbD 9 = d.getLsbD 7 ∧ c.getLsbD 8 = bdot d 0x71 ∧
      c.getLsbD 7 = d.getLsbD 6 ∧ c.getLsbD 6 = d.getLsbD 5 ∧ c.getLsbD 5 = d.getLsbD 4 ∧ c.getLsbD 4 = bdot d 0x0F ∧
      c.getLsbD 3 = d.getLsbD 3 ∧ c.getLsbD 2 = d.getLsbD 2 ∧ c.getLsbD 1 = d.getLsbD 1 ∧ c.getLsbD 0 = d.getLsbD 0) ∧
    c.toNat = (d.toNat &&& 0x0F) ||| ((d.toNat &&& 0x70) <<< 1) ||| ((d.toNat &&& 0x80) <<< 2) |||
      ((popcount (d &&& 0xDA) % 2) <<< 11) ||| ((popcount (d &&& 0xB6) % 2) <<< 10) |||
      ((popcount (d &&& 0x71) % 2) <<< 8) ||| ((popcount (d &&& 0x0F) % 2) <<< 4)

/-- R106. -/
def Obligations.ExtractStripsParity : Prop :=
  (∀ c : Symbol,
    (extract c).toNat = ((c.toNat >>> 2) &&& 0x80) ||| ((c.toNat >>> 1) &&& 0x70) ||| (c.toNat &&& 0x0F) ∧
    ∀ q ∈ [11, 10, 8, 4], extract (flipBit c q) = extract c) ∧
  ∀ d : Byte, extract (encode12 d) = d

/-- R108, R109: the codewords are the 256 values of the encoder, one per byte, all of syndrome 0, and decoding inverts encoding. -/
def Obligations.CodewordsDecodeBack : Prop :=
  (∀ d : Byte, syndrome (encode12 d) = 0 ∧ decode12 (encode12 d) = d) ∧
  (∀ d d' : Byte, encode12 d = encode12 d' → d = d') ∧
  (∀ c : Symbol, syndrome c = 0 → ∃ d : Byte, c = encode12 d)

/-- R110. -/
def Obligations.SingleErrorsCorrected : Prop :=
  (∀ (d : Byte) (q : Nat), q < 12 →
    decode12 (flipBit (encode12 d) q) = d ∧ syndrome (flipBit (encode12 d) q) = 12 - q) ∧
  (∀ (d : Byte) (a b : Nat), 1 ≤ a → a ≤ 12 → 1 ≤ b → b ≤ 12 → a ≠ b →
    let c := flipBit (flipBit (encode12 d) (12 - a)) (12 - b)
    syndrome c = a ^^^ b ∧ a ^^^ b ≠ 0 ∧
    (a ^^^ b ≤ 12 → decode12 c = extract (flipBit c (12 - (a ^^^ b)))) ∧
    (13 ≤ a ^^^ b → decode12 c = extract c)) ∧
  (∀ z, z < 16 → ((List.range 4096).filter fun n => syndrome (BitVec.ofNat 12 n) == z).length = 256) ∧
  (∀ s : State, s.arg.toNat < 2 ^ 12 → ∃ t, exec .decSym s = .next t ∧ EndedWith 0 t ∧ SameAround s t)

/-- R102 and its derivation in 95_test_vectors.md section 2.1: the syndrome is linear and names the position of a single bit. -/
def Obligations.SyndromeNamesPosition : Prop :=
  (∀ a b : Symbol, syndrome (a ^^^ b) = syndrome a ^^^ syndrome b) ∧
  (∀ p, 1 ≤ p → p ≤ 12 → syndrome (flipBit 0 (12 - p)) = p) ∧
  (∀ c : Symbol, syndrome c = (bdot c 0x01F).toNat * 8 + (bdot c 0x1E1).toNat * 4 + (bdot c 0x666).toNat * 2 +
    (bdot c 0xAAA).toNat)

/-! ### The symbol commands and ENC_LEN -/

/-- R115. -/
def Obligations.NopCompletes : Prop :=
  decodeCmd 0x00000000 = .ok .nop ∧
  ∀ s : State, ∃ t, exec .nop s = .next t ∧ EndedWith 0 t ∧ SameAround s t ∧ t.result = s.result ∧ t.mem = s.mem ∧
    (s.fatal = false → s.irqEn = true → t.statusWord = 0x00000002 ∧ t.irq = true)

/-- R113. -/
def Obligations.EncSymEncodesOrRefuses : Prop :=
  decodeCmd 0x00000001 = .ok .encSym ∧
  (∀ s : State, s.arg.toNat < 2 ^ 8 →
    ∃ t, exec .encSym s = .next t ∧ EndedWith 0 t ∧ SameAround s t ∧ t.mem = s.mem ∧
      t.result = (encode12 (s.arg.extractLsb' 0 8)).setWidth 32) ∧
  (∀ s : State, 2 ^ 8 ≤ s.arg.toNat → ∃ t, exec .encSym s = .next t ∧ RefusedWith 1 s t) ∧
  encode12 0x00 = 0x000 ∧ encode12 0xFF = 0xEEF ∧ encode12 0x5A = 0x0AA

/-- R114. -/
def Obligations.DecSymDecodesOrRefuses : Prop :=
  decodeCmd 0x00000002 = .ok .decSym ∧
  (∀ s : State, s.arg.toNat < 2 ^ 12 →
    ∃ t, exec .decSym s = .next t ∧ EndedWith 0 t ∧ SameAround s t ∧ t.mem = s.mem ∧
      t.result = (decode12 (s.arg.extractLsb' 0 12)).setWidth 32) ∧
  (∀ s : State, 2 ^ 12 ≤ s.arg.toNat → ∃ t, exec .decSym s = .next t ∧ RefusedWith 1 s t) ∧
  decode12 0x000 = 0x00 ∧ decode12 0xFFF = 0xFE ∧ decode12 0x801 = 0x01 ∧ decode12 0x0AB = 0x5A

/-- R149. -/
def Obligations.EncLenComputesOrRefuses : Prop :=
  decodeCmd 0x00000007 = .ok .encLen ∧
  (∀ s : State, s.len.toNat ≤ 0xAAAAAAAA →
    ∃ t, exec .encLen s = .next t ∧ EndedWith 0 t ∧ SameAround s t ∧ t.mem = s.mem ∧
      t.result.toNat = 3 * (s.len.toNat / 2) + (if s.len.toNat % 2 = 1 then 2 else 0)) ∧
  (∀ s : State, 0xAAAAAAAA < s.len.toNat → ∃ t, exec .encLen s = .next t ∧ RefusedWith 4 s t) ∧
  encLen 0 = 0 ∧ encLen 1 = 2 ∧ encLen 5 = 8 ∧ encLen 0xAAAAAAAA = 0xFFFFFFFF ∧ encLen 0xAAAAAAAB = 2 ^ 32 + 1

/-- The frame of the commands that do not reach buffer memory (20_memory.md R60, 30_encoding.md R85, 60_exceptions.md R176). -/
def Obligations.RegisterCommandFrame : Prop :=
  ∀ i ∈ [Instr.nop, .encSym, .decSym, .encLen], ∀ s t : State, exec i s = .next t →
    SameAround s t ∧ t.mem = s.mem ∧ (∀ a, t.mem.read a = s.mem.read a) ∧
    (t.err ≠ 0 → t.result = s.result) ∧ (i = .nop → t.result = s.result)

/-! ### The packer -/

/-- R130, R131: the length function is strictly increasing and injective, and its values. -/
def Obligations.EncLenStrictlyIncreasing : Prop :=
  (∀ k, encLen (2 * k) = 3 * k ∧ encLen (2 * k + 1) = 3 * k + 2) ∧
  (∀ a b, a < b → encLen a < encLen b) ∧ (∀ a b, encLen a = encLen b → a = b) ∧ (∀ a, encLen a % 3 ≠ 1)

/-- R133. -/
def Obligations.CountLimit : Prop :=
  (∀ l, fits (encLen l) = true ↔ l ≤ 0xAAAAAAAA) ∧
  (∀ n, (fits (2 * n) = true ∧ fits (encLen n) = true) ↔ n ≤ 0x7FFFFFFF) ∧
  (∀ s : State, 0xAAAAAAAA < s.len.toNat →
    ∀ i ∈ [Instr.encMsg, .decMsg, .encLen], ∃ t, exec i s = .next t ∧ RefusedWith 4 s t) ∧
  (∀ s : State, 0x7FFFFFFF < s.len.toNat → ∀ i ∈ [Instr.pack, .unpack], ∃ t, exec i s = .next t ∧ RefusedWith 4 s t) ∧
  (∀ s : State, s.len.toNat ≤ 0xAAAAAAAA → ∃ t, exec .encLen s = .next t ∧ EndedWith 0 t)

/-- R139. -/
def Obligations.PackUnpackInverse : Prop :=
  (∀ s : List Symbol, unpackBytes (packSymbols s) s.length = s ∧ (packSymbols s).length = encLen s.length) ∧
  (∀ (b : List Byte) (n : Nat), b.length = encLen n →
    (unpackBytes b n).length = n ∧
    ((n % 2 = 1 → ∀ v, b.getLast? = some v → hiNibble v = 0#4) → packSymbols (unpackBytes b n) = b))

/-- R138: the upper nibble of the tail's second byte changes no symbol. -/
def Obligations.TailNibbleIgnored : Prop :=
  ∀ (b : List Byte) (n : Nat) (v v' : Byte), n % 2 = 1 → b.length = encLen n → b[encLen n - 1]? = some v →
    loNibble v' = loNibble v →
    unpackBytes (b.set (encLen n - 1) v') n = unpackBytes b n ∧
    decodeMessage (b.set (encLen n - 1) v') n = decodeMessage b n

/-- R135, R136, R140: which bit of which symbol each bit of a packed byte is. -/
def Obligations.PackedBitMap : Prop :=
  (∀ (s : List Symbol) (j : Nat) (a b : Symbol), s[2 * j]? = some a → s[2 * j + 1]? = some b →
    ∃ x y z, (packSymbols s)[3 * j]? = some x ∧ (packSymbols s)[3 * j + 1]? = some y ∧ (packSymbols s)[3 * j + 2]? = some z ∧
      ∀ i, i < 8 → x.getLsbD i = a.getLsbD i ∧ y.getLsbD i = b.getLsbD i ∧
        z.getLsbD i = (if i ≤ 3 then a.getLsbD (8 + i) else b.getLsbD (4 + i))) ∧
  (∀ (s : List Symbol) (j : Nat) (t : Symbol), s.length = 2 * j + 1 → s[2 * j]? = some t →
    ∃ x y, (packSymbols s)[3 * j]? = some x ∧ (packSymbols s)[3 * j + 1]? = some y ∧
      ∀ i, i < 8 → x.getLsbD i = t.getLsbD i ∧ y.getLsbD i = (if i ≤ 3 then t.getLsbD (8 + i) else false))

/-- R144: the message round trip, and its tolerance of one flipped bit per symbol and of any one flipped bit of the bytes. -/
def Obligations.MessageRoundTripUnderFlips : Prop :=
  (∀ d : List Byte, decodeMessage (encodeMessage d) d.length = d) ∧
  (∀ d b : List Byte, b.length = encLen d.length →
    AtMostOneFlipEach (unpackBytes (encodeMessage d) d.length) (unpackBytes b d.length) → decodeMessage b d.length = d) ∧
  (∀ (d : List Byte) (m i : Nat), m < encLen d.length → i < 8 →
    let b := flipByteBit (encodeMessage d) m i
    decodeMessage b d.length = d ∧
    (if d.length % 2 = 1 ∧ m = encLen d.length - 1 ∧ 4 ≤ i then
      unpackBytes b d.length = unpackBytes (encodeMessage d) d.length
    else
      ∃ k q, k < d.length ∧ q < 12 ∧
        unpackBytes b d.length = (unpackBytes (encodeMessage d) d.length).modify k (flipBit · q)))

/-! ### The memory commands -/

/-- R147. The host keeps its duty (20_memory.md R73) where the bytes written are said. -/
def Obligations.EncMsgWritesEncodedMessage : Prop :=
  decodeCmd 0x00000003 = .ok .encMsg ∧
  (∀ s : State, s.mem.wf = true → s.Untouched → s.RangesPass s.len.toNat (encLen s.len.toNat) →
    ∃ t, exec .encMsg s = .next t ∧ EndedWith 0 t ∧ SameAround s t ∧ t.result.toNat = encLen s.len.toNat ∧
      t.mem.readBytes s.dst.toNat (encLen s.len.toNat) = encodeMessage (s.mem.readBytes s.src.toNat s.len.toNat) ∧
      SameBytesOutside s.dst.toNat (encLen s.len.toNat) s t) ∧
  (∀ s : State, ¬s.RangesPass s.len.toNat (encLen s.len.toNat) → ∃ t, exec .encMsg s = .next t ∧ RefusedWith 4 s t) ∧
  (∀ s : State, 0xAAAAAAAA < s.len.toNat → ¬s.RangesPass s.len.toNat (encLen s.len.toNat)) ∧
  (∀ s t : State, exec .encMsg s = .next t → t.err ≠ 1) ∧
  (∀ s : State, s.len = 0 → ∃ t, exec .encMsg s = .next t ∧ EndedWith 0 t ∧ t.result = 0 ∧ t.mem = s.mem) ∧
  (∀ (d : List Byte) (x : Byte), d.length % 2 = 0 →
    encodeMessage (d ++ [x]) = encodeMessage d ++ [lowByte (encode12 x), (highNibble (encode12 x)).setWidth 8]) ∧
  (∃ (d : List Byte) (x : Byte), d.length % 2 = 1 ∧ ¬encodeMessage d <+: encodeMessage (d ++ [x])) ∧
  encodeMessage [0x48, 0x69, 0x21] = [0x98, 0xC9, 0x51, 0x51, 0x04]

/-- R148. The host keeps its duty (20_memory.md R73) where the bytes written are said. -/
def Obligations.DecMsgWritesDecodedMessage : Prop :=
  decodeCmd 0x00000004 = .ok .decMsg ∧
  (∀ s : State, s.mem.wf = true → s.Untouched → s.RangesPass (encLen s.len.toNat) s.len.toNat →
    ∃ t, exec .decMsg s = .next t ∧ EndedWith 0 t ∧ SameAround s t ∧ t.result = s.len ∧
      t.mem.readBytes s.dst.toNat s.len.toNat =
        decodeMessage (s.mem.readBytes s.src.toNat (encLen s.len.toNat)) s.len.toNat ∧
      SameBytesOutside s.dst.toNat s.len.toNat s t) ∧
  (∀ s : State, ¬s.RangesPass (encLen s.len.toNat) s.len.toNat → ∃ t, exec .decMsg s = .next t ∧ RefusedWith 4 s t) ∧
  (∀ s : State, 0xAAAAAAAA < s.len.toNat → ¬s.RangesPass (encLen s.len.toNat) s.len.toNat) ∧
  (∀ s t : State, exec .decMsg s = .next t → t.err ≠ 1) ∧
  (∀ s : State, s.len = 0 → ∃ t, exec .decMsg s = .next t ∧ EndedWith 0 t ∧ t.result = 0 ∧ t.mem = s.mem) ∧
  decodeMessage [0x99, 0xC9, 0x51, 0x51, 0x04] 3 = [0x48, 0x69, 0x21]

/-- R145: packed when every container is a symbol, refused with nothing written otherwise. The host keeps its duty (20_memory.md R73)
where the outcome depends on the bytes read. -/
def Obligations.PackPacksOrRefuses : Prop :=
  decodeCmd 0x00000005 = .ok .pack ∧
  (∀ s : State, s.mem.wf = true → s.Untouched → s.RangesPass (2 * s.len.toNat) (encLen s.len.toNat) →
    ((∀ c ∈ s.mem.readContainers s.src.toNat s.len.toNat, c.toNat < 2 ^ 12) →
      ∃ t, exec .pack s = .next t ∧ EndedWith 0 t ∧ SameAround s t ∧ t.result.toNat = encLen s.len.toNat ∧
        t.mem.readBytes s.dst.toNat (encLen s.len.toNat) =
          packSymbols ((s.mem.readContainers s.src.toNat s.len.toNat).map (·.setWidth 12)) ∧
        SameBytesOutside s.dst.toNat (encLen s.len.toNat) s t) ∧
    ((∃ c ∈ s.mem.readContainers s.src.toNat s.len.toNat, 2 ^ 12 ≤ c.toNat) →
      ∃ t, exec .pack s = .next t ∧ RefusedWith 1 s t)) ∧
  (∀ s : State, ¬s.RangesPass (2 * s.len.toNat) (encLen s.len.toNat) → ∃ t, exec .pack s = .next t ∧ RefusedWith 4 s t) ∧
  (∀ s : State, s.Untouched → s.len = 0 →
    ∃ t, exec .pack s = .next t ∧ EndedWith 0 t ∧ t.result = 0 ∧ t.mem = s.mem) ∧
  encLen 1 = 2 ∧ packSymbols [0x198, 0x5C9] = [0x98, 0xC9, 0x51]

/-- R146: each symbol in a container of its own, upper nibble 0. The host keeps its duty (20_memory.md R73) where the bytes written
are said. -/
def Obligations.UnpackWritesContainers : Prop :=
  decodeCmd 0x00000006 = .ok .unpack ∧
  (∀ s : State, s.mem.wf = true → s.Untouched → s.RangesPass (encLen s.len.toNat) (2 * s.len.toNat) →
    ∃ t, exec .unpack s = .next t ∧ EndedWith 0 t ∧ SameAround s t ∧ t.result.toNat = 2 * s.len.toNat ∧
      t.mem.readContainers s.dst.toNat s.len.toNat =
        (unpackBytes (s.mem.readBytes s.src.toNat (encLen s.len.toNat)) s.len.toNat).map (·.setWidth 16) ∧
      SameBytesOutside s.dst.toNat (2 * s.len.toNat) s t) ∧
  (∀ s : State, ¬s.RangesPass (encLen s.len.toNat) (2 * s.len.toNat) → ∃ t, exec .unpack s = .next t ∧ RefusedWith 4 s t) ∧
  (∀ s t : State, exec .unpack s = .next t → t.err ≠ 1) ∧
  (∀ s : State, s.len = 0 → ∃ t, exec .unpack s = .next t ∧ EndedWith 0 t ∧ t.result = 0 ∧ t.mem = s.mem) ∧
  (∀ (b : List Byte) (n : Nat) (v v' : Byte), n % 2 = 1 → b.length = encLen n → b[encLen n - 1]? = some v →
    loNibble v' = loNibble v → unpackBytes (b.set (encLen n - 1) v') n = unpackBytes b n) ∧
  unpackBytes [0x98, 0xC9, 0x51, 0x51, 0x04] 3 = [0x198, 0x5C9, 0x451]

/-- A memory command whose checks do not all pass ends with BadRange (60_exceptions.md R177 items 2 to 5). -/
def Obligations.MemoryCommandsRefuseBadRanges : Prop :=
  ∀ (i : Instr) (s : State) (m n : Nat), commandSizes i s.len.toNat = some (m, n) → ¬s.RangesPass m n →
    ∃ t, exec i s = .next t ∧ RefusedWith 4 s t

/-- The frame of ENC_MSG, DEC_MSG, PACK and UNPACK, whatever the host did meanwhile: no byte outside the output range changes, and
none at all when the command ends with an error (20_memory.md R74, 60_exceptions.md R174). -/
def Obligations.MemoryCommandFrame : Prop :=
  ∀ (i : Instr) (s t : State) (m n : Nat), commandSizes i s.len.toNat = some (m, n) → exec i s = .next t →
    SameAround s t ∧ SameBytesOutside s.dst.toNat n s t ∧ (t.err ≠ 0 → t.result = s.result ∧ t.mem = s.mem)

/-! ### Errors and completion -/

/-- R172. -/
def Obligations.InvalidInputExactly : Prop :=
  (∀ (i : Instr) (s t : State), s.Untouched → exec i s = .next t →
    (t.err = 1 ↔
      (i = .encSym ∧ 2 ^ 8 ≤ s.arg.toNat) ∨ (i = .decSym ∧ 2 ^ 12 ≤ s.arg.toNat) ∨
      (i = .pack ∧ s.RangesPass (2 * s.len.toNat) (encLen s.len.toNat) ∧
        ∃ c ∈ s.mem.readContainers s.src.toNat s.len.toNat, 2 ^ 12 ≤ c.toNat))) ∧
  (∀ i ∈ [Instr.encMsg, .decMsg, .unpack], ∀ s t : State, exec i s = .next t → t.err ≠ 1)

/-- R174. -/
def Obligations.ErrorsArePrecise : Prop :=
  CmdError.code .invalidInput = 1 ∧ CmdError.code .illegalCommand = 3 ∧ CmdError.code .badRange = 4 ∧
  (∀ (c : CmdError) (s : State), RefusedWith c.code s (s.raise c)) ∧
  (∀ (i : Instr) (s t : State), exec i s = .next t → t.err ≠ 0 → ∃ c : CmdError, t = s.raise c)

/-- The length postcondition of R143 never fails, so InternalConsistencyFault is never raised: no command and no step sets FATAL. -/
def Obligations.LengthCheckNeverFails : Prop :=
  (∀ (i : Instr) (s t : State), exec i s = .next t → t.err ≠ 2 ∧ t.fatal = s.fatal) ∧
  (∀ s t : State, step s = .next t → s.fatal = false → t.fatal = false)

/-- R175, of the operation that raises the fault; the output bytes are free, so nothing is said of them. -/
def Obligations.InconsistencyFaultIsFatal : Prop :=
  ∀ (base n : Nat) (s : State),
    let t := s.raiseInconsistent base n
    EndedWith 2 t ∧ t.fatal = true ∧ t.result = s.result ∧ SameBytesOutside base n s t ∧
    (∀ w, t.accept w = t) ∧ ∃ u, rstAssert t = .next u ∧ u.fatal = false

/-- R176; and RESULT changes in no other step than one in which a command completes (with it STATUS), or a reset. -/
def Obligations.CompletionActions : Prop :=
  (∀ (r : Word) (s : State), EndedWith 0 (s.complete (some r)) ∧ (s.complete (some r)).result = r) ∧
  (∀ s : State, EndedWith 0 (s.complete none) ∧ (s.complete none).result = s.result) ∧
  (∀ s t : State, s.Inv → step s = .next t → t.result ≠ s.result →
    (s.busy = true ∧ s.CoreNext ∧ EndedWith 0 t) ∨ ∃ rest, s.inputs = .rstAssert :: rest)

/-- R178. -/
def Obligations.AcceptanceRule : Prop :=
  ∀ (s : State) (w : Word), s.rst = false →
    (s.fatal = true → hostWriteReg 4 0x0C w s = .next s) ∧
    (s.busy = true → hostWriteReg 4 0x0C w s = .next s) ∧
    (s.fatal = false → s.busy = false →
      ∃ t, hostWriteReg 4 0x0C w s = .next t ∧ t.err = 0 ∧ t.done = false ∧ t.busy = true ∧ t.inFlight = true ∧ t.curCmd = w ∧
        SameAround s t ∧ t.result = s.result ∧ t.mem = s.mem ∧
        (s.inputs = [] →
          (∀ i, decodeCmd w = .ok i → step t = exec i t) ∧
          (∀ r, decodeCmd w = .error r → step t = .next (t.raise .illegalCommand))))

/-! ### The register window -/

/-- R37. -/
def Obligations.HostWriteTable : Prop :=
  ∀ (s : State) (w : Word), s.rst = false →
    hostWriteReg 4 0x00 w s = .next s ∧
    hostWriteReg 4 0x04 w s = .next { s with irqEn := w.getLsbD 0 } ∧
    hostWriteReg 4 0x08 w s = .next { s with done := s.done && !w.getLsbD 1 } ∧
    hostWriteReg 4 0x0C w s = .next (s.accept w) ∧
    hostWriteReg 4 0x10 w s = .next (if s.busy then s else { s with arg := w }) ∧
    hostWriteReg 4 0x14 w s = .next s ∧
    hostWriteReg 4 0x18 w s = .next (if s.busy then s else { s with src := w }) ∧
    hostWriteReg 4 0x1C w s = .next (if s.busy then s else { s with dst := w }) ∧
    hostWriteReg 4 0x20 w s = .next (if s.busy then s else { s with len := w }) ∧
    (∀ o : BitVec 6, 0x24 ≤ o.toNat → o.toNat % 4 = 0 → hostWriteReg 4 o w s = .next s)

/-- R35, R36: what each offset reads as, that a read has no effect but its reply, and that no other access has a meaning. -/
def Obligations.WindowReads : Prop :=
  (∀ (s : State) (o : BitVec 6), s.rst = false → o.toNat % 4 = 0 →
    ∃ v, hostReadReg 4 o s = .next { s with lastRead := some (.reg o v) } ∧
      (o = 0x00 → v = 0x01010C08) ∧ (o = 0x04 → v = s.ctrlWord) ∧ (o = 0x08 → v = s.statusWord) ∧ (o = 0x0C → v = 0) ∧
      (o = 0x10 → v = s.arg) ∧ (o = 0x14 → v = s.result) ∧ (o = 0x18 → v = s.src) ∧ (o = 0x1C → v = s.dst) ∧
      (o = 0x20 → v = s.len) ∧ (0x24 ≤ o.toNat → v = 0)) ∧
  (∀ (s : State) (w : Word) (o : BitVec 6), s.rst = false → 0x24 ≤ o.toNat → o.toNat % 4 = 0 →
    hostWriteReg 4 o w s = .next s) ∧
  (∀ (s : State) (w : Word) (n : Nat) (o : BitVec 6), n ≠ 4 ∨ o.toNat % 4 ≠ 0 →
    hostReadReg n o s = .refused (.windowAccess n o) ∧ hostWriteReg n o w s = .refused (.windowAccess n o))

/-- R23, R24: the fields of CTRL and STATUS, what a host write does to them, and their reset values; reserved bits read 0. -/
def Obligations.StatusAndControlFields : Prop :=
  (State.reset.statusWord = 0 ∧ State.reset.ctrlWord = 0) ∧
  ∀ s : State,
    (s.statusWord.getLsbD 0 = s.busy ∧ s.statusWord.getLsbD 1 = s.done ∧ s.statusWord.getLsbD 2 = s.fatal ∧
      s.statusWord.getLsbD 3 = false ∧ s.statusWord.extractLsb' 4 4 = s.err ∧ s.statusWord.extractLsb' 8 24 = 0#24) ∧
    (s.ctrlWord.getLsbD 0 = s.irqEn ∧ s.ctrlWord.extractLsb' 1 31 = 0#31) ∧
    s.irq = (if s.irqEn then s.done else false) ∧
    (∀ w : Word, s.rst = false →
      hostWriteReg 4 0x04 w s = .next { s with irqEn := w.getLsbD 0 } ∧
      hostWriteReg 4 0x08 w s = .next { s with done := s.done && !w.getLsbD 1 })

/-- R38, R181. -/
def Obligations.InterruptFollowsCompletion : Prop :=
  (∀ s : State, s.irq = true ↔ s.done = true ∧ s.irqEn = true) ∧ State.reset.irq = false ∧
  (∀ (i : Instr) (s t : State), exec i s = .next t → t.irq = s.irqEn) ∧
  (∀ s : State, (s.raise .illegalCommand).irq = s.irqEn ∧ ∀ base n, (s.raiseInconsistent base n).irq = s.irqEn) ∧
  (∀ (s t : State) (w : Word), s.rst = false →
    (hostWriteReg 4 0x08 w s = .next t → w.getLsbD 1 = true → t.irq = false) ∧
    (hostWriteReg 4 0x04 w s = .next t → w.getLsbD 0 = false → t.irq = false) ∧
    (hostWriteReg 4 0x0C w s = .next t → s.fatal = false → s.busy = false → t.irq = false))

/-! ### Whole-machine rules of STATUS -/

/-- R25: which events set BUSY and which clear it. -/
def Obligations.BusyFromAcceptanceToCompletion : Prop :=
  ∀ s t : State, s.Inv → step s = .next t →
    (∀ w rest, s.inputs = .regWrite 4 0x0C w :: rest → s.rst = false → s.fatal = false → t.busy = true) ∧
    (s.busy = false → t.busy = true →
      ∃ w rest, s.inputs = .regWrite 4 0x0C w :: rest ∧ s.rst = false ∧ s.fatal = false ∧ t.curCmd = w) ∧
    (s.busy = true → s.CoreNext → t.busy = false) ∧
    (s.busy = true → t.busy = false → s.CoreNext ∨ ∃ rest, s.inputs = .rstAssert :: rest)

/-- R26: which events set DONE and which clear it. -/
def Obligations.DoneIsSticky : Prop :=
  ∀ s t : State, s.Inv → step s = .next t →
    (s.busy = true → s.CoreNext → t.done = true) ∧
    (s.done = false → t.done = true → s.busy = true ∧ s.CoreNext) ∧
    (∀ w rest, s.inputs = .regWrite 4 0x08 w :: rest → t.done = (s.done && !w.getLsbD 1)) ∧
    (s.busy = false → t.busy = true → t.done = false) ∧
    (s.done = true → t.done = false →
      (∃ w rest, s.inputs = .regWrite 4 0x08 w :: rest ∧ w.getLsbD 1 = true) ∨ t.busy = true ∨
        ∃ rest, s.inputs = .rstAssert :: rest)

/-- R27: FATAL is set by the fault, cleared by reset alone, and makes the core ignore CMD. -/
def Obligations.FatalUntilReset : Prop :=
  (∀ (base n : Nat) (s : State), (s.raiseInconsistent base n).fatal = true) ∧
  ∀ s t : State, s.Inv → step s = .next t → s.fatal = true →
    (t.fatal = false ↔ ∃ rest, s.inputs = .rstAssert :: rest) ∧
    (∀ w rest, s.inputs = .regWrite 4 0x0C w :: rest → t = { s with inputs := rest })

/-- R28: ERR is the code of the last command that completed; acceptance clears it and no other host write changes it. -/
def Obligations.ErrOfLastCommand : Prop :=
  ∀ s t : State, s.Inv → step s = .next t →
    (s.busy = false → t.busy = true → t.err = 0) ∧
    (s.busy = true → s.CoreNext →
      (∀ i, decodeCmd s.curCmd = .ok i → exec i { s with inputs := s.inputs.tail } = .next t) ∧
      (∀ r, decodeCmd s.curCmd = .error r → t.err = 3)) ∧
    (∀ n o w rest, s.inputs = .regWrite n o w :: rest → t.busy = s.busy → t.err = s.err) ∧
    (t.err ≠ s.err → (s.busy = false ∧ t.busy = true) ∨ (s.busy = true ∧ s.CoreNext) ∨ ∃ rest, s.inputs = .rstAssert :: rest)

/-- While a command stays in flight its operands, its word and the previous RESULT do not change (10_state.md R31, R37, R41;
70_reset_and_hazards.md R205, R208). -/
def Obligations.OperandsLockedWhileBusy : Prop :=
  ∀ s t : State, s.Inv → step s = .next t → s.busy = true → t.busy = true →
    t.arg = s.arg ∧ t.src = s.src ∧ t.dst = s.dst ∧ t.len = s.len ∧ t.curCmd = s.curCmd ∧ t.result = s.result

/-- 60_exceptions.md R182: a host write ordered right after a completion. The order of the events stands for the instant (log 2). -/
def Obligations.WriteAfterCompletion : Prop :=
  ∀ (s : State) (w : Word) (rest : List Event), s.Inv → s.busy = true →
    (s.inputs = .core :: .regWrite 4 0x08 w :: rest → w.getLsbD 1 = true →
      ∃ t u, step s = .next t ∧ t.done = true ∧ step t = .next u ∧ u.done = false ∧ u.busy = false) ∧
    (s.inputs = .core :: .regWrite 4 0x0C w :: rest →
      ∃ t u, step s = .next t ∧ t.done = true ∧ step t = .next u ∧ u.done = false ∧ u.busy = true ∧ u.curCmd = w)

/-- R179: a command completes at the core's turn, and nothing but reset cancels it before. -/
def Obligations.AcceptedCommandCompletes : Prop :=
  (∀ s : State, s.Inv → s.busy = true → s.CoreNext →
    ∃ t, step s = .next t ∧ EndedWith t.err t ∧ t.err.toNat ≤ 4 ∧ t.fatal = false) ∧
  (∀ s t : State, s.Inv → s.busy = true → ¬s.CoreNext → step s = .next t →
    t.busy = true ∨ ∃ rest, s.inputs = .rstAssert :: rest)

/-- Whatever the host does, the machine becomes idle once the pending events are used up: no command stays in flight for ever
(70_reset_and_hazards.md R211, 60_exceptions.md R179). That the core's turn comes when no event is pending is the model's choice
(log 2), so the bound on the number of steps is the model's too. -/
def Obligations.PendingEventsDrainToIdle : Prop :=
  ∀ s : State, s.Inv → (∀ e ∈ s.inputs, Event.hasMeaning s.memSize e = true) →
    ∃ t : State, Host.Core.run Sys2Proof.core (s.inputs.length + 1) s = .next t ∧ t.inputs = [] ∧ t.busy = false ∧
      t.inFlight = false ∧ t.Inv

/-! ### Reset -/

/-- R44: the reset values, of the state after reset and of every state in which `rst` is asserted. -/
def Obligations.ResetValues : Prop :=
  (State.reset.AtReset ∧ State.reset.irq = false ∧ State.reset.readReg .id = 0x01010C08) ∧
  ∀ s : State, ∃ t, rstAssert s = .next t ∧ t.AtReset ∧ t.irq = false ∧ t.readReg .id = 0x01010C08

/-- R202, R203. -/
def Obligations.ResetAbandonsCommand : Prop :=
  ∀ (s : State) (rest : List Event), s.mem.wf = true → s.inputs = .rstAssert :: rest →
    ∃ t, step s = .next t ∧ t.done = false ∧ t.result = 0 ∧ t.readReg .id = 0x01010C08 ∧
      (s.inFlight = false → t.mem = s.mem) ∧
      (∀ i u, s.inFlight = true → decodeCmd s.curCmd = .ok i → exec i s = .next u →
        (s.Untouched → ∀ a, t.mem.read a = s.mem.read a ∨ t.mem.read a = u.mem.read a) ∧
        (∀ m n, commandSizes i s.len.toNat = some (m, n) → SameBytesOutside s.dst.toNat n s t) ∧
        (commandSizes i s.len.toNat = none → t.mem = s.mem)) ∧
      (s.inFlight = true → 8 ≤ s.curCmd.toNat → t.mem = s.mem)

/-- 70_reset_and_hazards.md R200, R203: while `rst` is asserted the core keeps its reset values, no window access has an effect, a
window read replies with some value, and nothing but a host byte write changes memory; at its deassertion the core still has the
reset values. A deassertion of `rst` while it is low does nothing (log 2). -/
def Obligations.HeldInReset : Prop :=
  (∀ (s : State) (rest : List Event), s.rst = false → s.inputs = .rstDeassert :: rest →
    step s = .next { s with inputs := rest }) ∧
  ∀ s t : State, s.Inv → s.rst = true → step s = .next t →
    ((∀ a v rest, s.inputs ≠ .memWrite a v :: rest) → t.mem = s.mem) ∧
    (s.CoreNext → t = { s with inputs := s.inputs.tail }) ∧
    t.AtReset ∧ t.irq = false ∧
    (t.rst = false ↔ ∃ rest, s.inputs = .rstDeassert :: rest) ∧
    (∀ n o w rest, s.inputs = .regWrite n o w :: rest → t = { s with inputs := rest }) ∧
    (∀ n o rest, s.inputs = .regRead n o :: rest →
      ∃ v, t = { s with inputs := rest, lastRead := some (.reg o v), draws := s.draws + 1 })

/-! ### The ownership duty -/

/-- 20_memory.md R73: a host read of a byte while a command is in flight gives the byte's old value or its new value; with no command
in flight, or an illegal word, the byte's value. -/
def Obligations.HostReadsOldOrNewByte : Prop :=
  ∀ (s : State) (a : Word) (rest : List Event), s.mem.wf = true → s.Untouched → s.inputs = .memRead a :: rest →
    a.toNat < s.memSize →
    (s.inFlight = false ∨ 8 ≤ s.curCmd.toNat →
      step s = .next { s with inputs := rest, lastRead := some (.byte a (s.mem.read a.toNat)) }) ∧
    (∀ i u, s.inFlight = true → decodeCmd s.curCmd = .ok i → exec i s = .next u →
      ∃ t v, step s = .next t ∧ t.lastRead = some (.byte a v) ∧ (v = s.mem.read a.toNat ∨ v = u.mem.read a.toNat) ∧
        t = { s with inputs := rest, lastRead := t.lastRead, draws := t.draws })

/-- 20_memory.md R73: a host write to an output byte while busy leaves that byte the host's value or the command's, and changes
nothing else of what the command does. -/
def Obligations.HostWriteToOutputByte : Prop :=
  ∀ (i : Instr) (s s' : State) (a : Word) (v : Byte) (m n : Nat), s.mem.wf = true → s.Untouched → s.inFlight = true →
    decodeCmd s.curCmd = .ok i → commandSizes i s.len.toNat = some (m, n) → s.RangesPass m n →
    s.dst.toNat ≤ a.toNat → a.toNat < s.dst.toNat + n → hostWriteByte a v s = .next s' →
    ∃ u u', exec i s = .next u ∧ exec i s' = .next u' ∧ (u'.mem.read a.toNat = v ∨ u'.mem.read a.toNat = u.mem.read a.toNat) ∧
      (∀ b, b ≠ a.toNat → u'.mem.read b = u.mem.read b) ∧ u'.result = u.result ∧ u'.err = u.err

/-- 20_memory.md R73, U8: after a host write to an input byte while busy the command still ends; RESULT and STATUS are the rule's,
but that PACK may end with InvalidInput instead; no byte outside the output range changes, and the output bytes are free. -/
def Obligations.HostWriteToInputByte : Prop :=
  ∀ (i : Instr) (s s' : State) (a : Word) (v : Byte) (m n : Nat), s.mem.wf = true → s.Untouched → s.inFlight = true →
    decodeCmd s.curCmd = .ok i → commandSizes i s.len.toNat = some (m, n) → s.RangesPass m n →
    s.src.toNat ≤ a.toNat → a.toNat < s.src.toNat + m → hostWriteByte a v s = .next s' →
    ∃ u', exec i s' = .next u' ∧ SameAround s' u' ∧ SameBytesOutside s.dst.toNat n s' u' ∧
      ((EndedWith 0 u' ∧ u'.result.toNat = n) ∨ (i = .pack ∧ RefusedWith 1 s' u'))

/-- 20_memory.md R60, R69, R73: a host byte write stores its byte and changes nothing else, but for the record of a breach (log 8)
when it meets a range in flight; which is when a command in flight has ranges; and host writes to bytes outside both ranges do not
disturb the command, and are not disturbed by it. -/
def Obligations.HostWriteElsewhere : Prop :=
  (∀ (s : State) (a : Word) (v : Byte), s.mem.wf = true → a.toNat < s.memSize →
    ∃ t, hostWriteByte a v s = .next t ∧ t.mem.read a.toNat = v ∧ (∀ b, b ≠ a.toNat → t.mem.read b = s.mem.read b) ∧
      t = { s with mem := t.mem, inputTampered := t.inputTampered, hostWrote := t.hostWrote } ∧
      (s.flightRanges = none → t = { s with mem := t.mem })) ∧
  (∀ s : State, s.flightRanges = none ↔
    s.inFlight = false ∨ ∀ i m n, decodeCmd s.curCmd = .ok i → commandSizes i s.len.toNat = some (m, n) → ¬s.RangesPass m n) ∧
  ∀ (i : Instr) (s s' : State) (a : Word) (v : Byte) (m n : Nat), s.mem.wf = true → s.Untouched → s.inFlight = true →
    decodeCmd s.curCmd = .ok i → commandSizes i s.len.toNat = some (m, n) → s.RangesPass m n →
    ¬(s.src.toNat ≤ a.toNat ∧ a.toNat < s.src.toNat + m) → ¬(s.dst.toNat ≤ a.toNat ∧ a.toNat < s.dst.toNat + n) →
    hostWriteByte a v s = .next s' →
    s'.Untouched ∧ ∃ u u', exec i s = .next u ∧ exec i s' = .next u' ∧ u'.mem.read a.toNat = v ∧
      (∀ b, b ≠ a.toNat → u'.mem.read b = u.mem.read b) ∧ u'.result = u.result ∧ u'.err = u.err

/-- A host that keeps its duty (20_memory.md R73) leaves no trace on the command in flight. -/
def Obligations.DutyKeepsUntouched : Prop :=
  ∀ s t : State, s.Inv → s.Untouched → (∀ e, s.inputs.head? = some e → s.dutyKept e = true) → step s = .next t → t.Untouched

/-- Under the duty nothing the host can reach depends on the free values or on `cur_cmd`: two runs of a command that differ only in
the number of draws and in the hidden word end alike (93_implementation_defined.md U11, 20_memory.md R74). -/
def Obligations.FreeValuesDoNotShow : Prop :=
  ∀ (i : Instr) (s t t' : State) (k : Nat) (w : Word), s.Untouched → exec i s = .next t →
    exec i { s with draws := k, curCmd := w } = .next t' → { t' with draws := t.draws, curCmd := t.curCmd } = t

/-! ### The invariant, the stops, and the whole path of a message -/

/-- The state after reset meets the invariant; the memory and MEM_SIZE it starts with are the model's choice (logs 4, 5). -/
def Obligations.ResetMeetsInvariant : Prop := State.reset.Inv

/-- Every step keeps the invariant: memory canonical and inside MEM_SIZE, `in_flight` = BUSY, the STATUS bits consistent, ERR a code
that is written, and the reset values held while `rst` is asserted. -/
def Obligations.StepKeepsInvariant : Prop := ∀ s t : State, s.Inv → step s = .next t → t.Inv

/-- A step stops exactly on a host access that has no meaning, never in a command; a step that goes on uses up one event and keeps
MEM_SIZE (10_state.md R36, 93_implementation_defined.md; the fault is the model's, log 9). -/
def Obligations.StepStopsOnlyOnHostAccess : Prop :=
  (∀ s : State, (∃ t, step s = .next t) ↔ ∀ e, s.inputs.head? = some e → Event.hasMeaning s.memSize e = true) ∧
  (∀ (s : State) (f : Fault), step s = .fault f →
    ∃ a, f = .hostOutsideMemory a ∧ s.memSize ≤ a.toNat ∧
      (s.inputs.head? = some (.memRead a) ∨ ∃ v, s.inputs.head? = some (.memWrite a v))) ∧
  (∀ (s : State) (r : Refusal), step s = .refused r →
    ∃ n o, r = .windowAccess n o ∧ (n ≠ 4 ∨ o.toNat % 4 ≠ 0) ∧
      (s.inputs.head? = some (.regRead n o) ∨ ∃ w, s.inputs.head? = some (.regWrite n o w))) ∧
  (∀ s t : State, step s = .next t → t.inputs = s.inputs.tail ∧ t.memSize = s.memSize)

/-- The whole path of a message: ENC_MSG writes it encoded; wherever those bytes arrive, with at most one bit flipped in each symbol,
DEC_MSG of them writes the message again (41_message_packer.md R144, R147, R148). -/
def Obligations.EncodeTransmitDecode : Prop :=
  ∀ s t r : State, s.mem.wf = true → s.Untouched → s.RangesPass s.len.toNat (encLen s.len.toNat) → exec .encMsg s = .next t →
    r.mem.wf = true → r.Untouched → r.len = s.len → r.RangesPass (encLen s.len.toNat) s.len.toNat →
    AtMostOneFlipEach (unpackBytes (t.mem.readBytes s.dst.toNat (encLen s.len.toNat)) s.len.toNat)
      (unpackBytes (r.mem.readBytes r.src.toNat (encLen s.len.toNat)) s.len.toNat) →
    ∃ u, exec .decMsg r = .next u ∧ EndedWith 0 u ∧ u.result = s.len ∧
      u.mem.readBytes r.dst.toNat s.len.toNat = s.mem.readBytes s.src.toNat s.len.toNat ∧
      SameBytesOutside r.dst.toNat s.len.toNat r u

/-- PACK, then UNPACK of the bytes it wrote wherever they arrive, gives the containers again (41_message_packer.md R139, R145,
R146). -/
def Obligations.PackTransmitUnpack : Prop :=
  ∀ s t r : State, s.mem.wf = true → s.Untouched → s.RangesPass (2 * s.len.toNat) (encLen s.len.toNat) →
    exec .pack s = .next t → t.err = 0 →
    r.mem.wf = true → r.Untouched → r.len = s.len → r.RangesPass (encLen s.len.toNat) (2 * s.len.toNat) →
    r.mem.readBytes r.src.toNat (encLen s.len.toNat) = t.mem.readBytes s.dst.toNat (encLen s.len.toNat) →
    ∃ u, exec .unpack r = .next u ∧ EndedWith 0 u ∧
      u.mem.readContainers r.dst.toNat s.len.toNat = s.mem.readContainers s.src.toNat s.len.toNat
end

