-- ==== Sys2Proof/Laws/Memory.lean ====
section
/-! SUPPORT. The laws of buffer memory: a read after a write, and that every memory operation keeps the canonical form
(20_memory.md R62, R65, R69). -/

namespace Sys2Proof.Machine

theorem Memory.wfFrom_mono {lo lo' : Nat} (h : lo' ≤ lo) : ∀ {m : Memory}, m.wfFrom lo = true → m.wfFrom lo' = true
  | [], _ => rfl
  | (a, v) :: rest, hm => by
    simp only [Memory.wfFrom, Bool.and_eq_true, decide_eq_true_eq] at hm ⊢
    exact ⟨⟨by omega, hm.1.2⟩, hm.2⟩

/-- Below the first listed address of a canonical memory every byte is unlisted. -/
theorem Memory.read_below_of_wfFrom {lo a : Nat} (ha : a < lo) :
    ∀ {m : Memory}, m.wfFrom lo = true → m.read a = Memory.unlisted
  | [], _ => rfl
  | (k, v) :: rest, hm => by
    simp only [Memory.wfFrom, Bool.and_eq_true, decide_eq_true_eq] at hm
    have hk : a ≠ k := by omega
    simp only [Memory.read, if_neg hk]
    exact Memory.read_below_of_wfFrom (by omega : a < k + 1) hm.2

theorem Memory.wfFrom_write {a : Nat} (v : Byte) :
    ∀ {lo : Nat} {m : Memory}, lo ≤ a → m.wfFrom lo = true → (m.write a v).wfFrom lo = true
  | lo, [], hlo, _ => by
    by_cases hv : v = Memory.unlisted <;> simp [Memory.write, Memory.wfFrom, hv, hlo]
  | lo, (k, u) :: rest, hlo, hm => by
    simp only [Memory.wfFrom, Bool.and_eq_true, decide_eq_true_eq] at hm
    obtain ⟨⟨hk, hu⟩, hrest⟩ := hm
    by_cases h1 : a < k
    · by_cases hv : v = Memory.unlisted
      · simp [Memory.write, h1, hv, Memory.wfFrom, hk, hu, hrest]
      · simp [Memory.write, h1, hv, Memory.wfFrom, hu, hrest, hlo]
    · by_cases h2 : a = k
      · subst h2
        by_cases hv : v = Memory.unlisted
        · simpa [Memory.write, hv] using Memory.wfFrom_mono (by omega) hrest
        · simp [Memory.write, hv, Memory.wfFrom, hrest, hlo]
      · have := Memory.wfFrom_write v (by omega : k + 1 ≤ a) hrest
        simp [Memory.write, h1, h2, Memory.wfFrom, hk, hu, this]

/-- A write keeps the canonical form. -/
theorem Memory.wf_write {m : Memory} (a : Nat) (v : Byte) (h : m.wf = true) : (m.write a v).wf = true :=
  Memory.wfFrom_write v (Nat.zero_le a) h

/-- A sequence of writes keeps the canonical form. -/
theorem Memory.wf_writeBytes (vs : List Byte) : ∀ {m : Memory} (base : Nat), m.wf = true → (m.writeBytes base vs).wf = true := by
  induction vs with
  | nil => exact fun _ h => h
  | cons v vs ih => exact fun base h => ih (base + 1) (Memory.wf_write base v h)

theorem Memory.read_write_other {a b : Nat} (v : Byte) (h : b ≠ a) : ∀ m : Memory, (m.write a v).read b = m.read b
  | [] => by by_cases hv : v = Memory.unlisted <;> simp [Memory.write, Memory.read, hv, h]
  | (k, u) :: rest => by
    by_cases h1 : a < k
    · by_cases hv : v = Memory.unlisted <;> simp [Memory.write, h1, hv, Memory.read, h]
    · by_cases h2 : a = k
      · subst h2
        by_cases hv : v = Memory.unlisted <;> simp [Memory.write, hv, Memory.read, h]
      · by_cases hb : b = k <;> simp [Memory.write, h1, h2, Memory.read, hb, Memory.read_write_other v h rest]

theorem Memory.read_write_same_from {a : Nat} (v : Byte) :
    ∀ {lo : Nat} {m : Memory}, m.wfFrom lo = true → (m.write a v).read a = v
  | _, [], _ => by by_cases hv : v = Memory.unlisted <;> simp [Memory.write, Memory.read, hv]
  | lo, (k, u) :: rest, hm => by
    simp only [Memory.wfFrom, Bool.and_eq_true, decide_eq_true_eq] at hm
    by_cases h1 : a < k
    · have hr := Memory.read_below_of_wfFrom (by omega : a < k + 1) hm.2
      have hk : a ≠ k := by omega
      by_cases hv : v = Memory.unlisted <;> simp [Memory.write, h1, hv, Memory.read, hk, hr]
    · by_cases h2 : a = k
      · subst h2
        have hr := Memory.read_below_of_wfFrom (by omega : a < a + 1) hm.2
        by_cases hv : v = Memory.unlisted <;> simp [Memory.write, hv, Memory.read, hr]
      · simp [Memory.write, h1, h2, Memory.read, Memory.read_write_same_from v hm.2]

/-- A read after a write to the same address gives the value written. -/
theorem Memory.read_write_same {m : Memory} (a : Nat) (v : Byte) (h : m.wf = true) : (m.write a v).read a = v :=
  Memory.read_write_same_from v h

/-- A sequence of writes leaves every other address alone. -/
theorem Memory.read_writeBytes_outside (vs : List Byte) : ∀ {base a : Nat} (m : Memory),
    ¬(base ≤ a ∧ a < base + vs.length) → (m.writeBytes base vs).read a = m.read a := by
  induction vs with
  | nil => exact fun _ _ => rfl
  | cons v vs ih =>
    intro base a m h
    simp only [List.length_cons] at h
    rw [Memory.writeBytes, ih _ (by omega), Memory.read_write_other v (by omega)]

/-- Element i of a sequence of writes is read back at address base + i. -/
theorem Memory.read_writeBytes_inside (vs : List Byte) : ∀ {base i : Nat} {m : Memory} (hi : i < vs.length),
    m.wf = true → (m.writeBytes base vs).read (base + i) = vs[i] := by
  induction vs with
  | nil => intro _ _ _ hi; simp at hi
  | cons v vs ih =>
    intro base i m hi hm
    cases i with
    | zero => rw [Memory.writeBytes, Memory.read_writeBytes_outside _ _ (by omega)]; exact Memory.read_write_same base v hm
    | succ i =>
      have := ih (base := base + 1) (i := i) (by simpa using hi) (Memory.wf_write base v hm)
      simpa [Memory.writeBytes, Nat.add_assoc, Nat.add_comm 1 i] using this

@[simp] theorem Memory.length_readBytes (m : Memory) : ∀ (n base : Nat), (m.readBytes base n).length = n
  | 0, _ => rfl
  | n + 1, base => by simp [Memory.readBytes, Memory.length_readBytes m n]

/-- Two memories that agree on a range read the same from it. -/
theorem Memory.readBytes_congr {m m' : Memory} : ∀ {n base : Nat},
    (∀ a, base ≤ a → a < base + n → m.read a = m'.read a) → m.readBytes base n = m'.readBytes base n
  | 0, _, _ => rfl
  | n + 1, base, h => by
    simp only [Memory.readBytes]
    rw [h base (by omega) (by omega), Memory.readBytes_congr fun a h1 h2 => h a (by omega) (by omega)]

/-- What was written from base on is read back from base on. -/
theorem Memory.readBytes_writeBytes (vs : List Byte) : ∀ {base : Nat} {m : Memory},
    m.wf = true → (m.writeBytes base vs).readBytes base vs.length = vs := by
  induction vs with
  | nil => exact fun _ => rfl
  | cons v vs ih =>
    intro base m hm
    simp only [List.length_cons, Memory.readBytes, Memory.writeBytes]
    rw [ih (Memory.wf_write base v hm), Memory.read_writeBytes_outside _ _ (by omega), Memory.read_write_same base v hm]

theorem Memory.below_write {n a : Nat} (v : Byte) (ha : a < n) : ∀ {m : Memory}, m.below n = true → (m.write a v).below n = true
  | [], _ => by by_cases hv : v = Memory.unlisted <;> simp [Memory.write, Memory.below, hv, ha]
  | (k, u) :: rest, hm => by
    have hm' : k < n ∧ Memory.below n rest = true := by simpa [Memory.below] using hm
    have ih := Memory.below_write v ha hm'.2
    simp only [Memory.below, List.all_eq_true, decide_eq_true_eq] at ih hm ⊢
    simp only [Memory.write]
    split_ifs <;> intro c hc
    · exact hm c hc
    · rcases List.mem_cons.1 hc with rfl | hc
      · exact ha
      · exact hm c hc
    · exact hm c (List.mem_cons_of_mem _ hc)
    · rcases List.mem_cons.1 hc with rfl | hc
      · exact ha
      · exact hm c (List.mem_cons_of_mem _ hc)
    · rcases List.mem_cons.1 hc with rfl | hc
      · exact hm'.1
      · exact ih c hc

/-- A sequence of writes below n lists nothing at n or above. -/
theorem Memory.below_writeBytes {n : Nat} (vs : List Byte) : ∀ {m : Memory} {base : Nat},
    (vs = [] ∨ base + vs.length ≤ n) → m.below n = true → (m.writeBytes base vs).below n = true := by
  induction vs with
  | nil => exact fun _ h => h
  | cons v vs ih =>
    intro m base h hm
    have hb : base + (vs.length + 1) ≤ n := by simpa using h
    exact ih (Or.inr (by omega)) (Memory.below_write v (by omega) hm)

end Sys2Proof.Machine
end

