-- ==== Sys2Proof/Laws/State.lean ====
section
/-! SUPPORT. One lemma per field of State per named update, so that no later proof unfolds a record update. -/

namespace Sys2Proof.Machine

/-! ### latch -/

@[simp] theorem State.latch_irqEn (w : Word) (s : State) : (s.latch w).irqEn = s.irqEn := rfl
@[simp] theorem State.latch_busy (w : Word) (s : State) : (s.latch w).busy = true := rfl
@[simp] theorem State.latch_done (w : Word) (s : State) : (s.latch w).done = false := rfl
@[simp] theorem State.latch_fatal (w : Word) (s : State) : (s.latch w).fatal = s.fatal := rfl
@[simp] theorem State.latch_err (w : Word) (s : State) : (s.latch w).err = 0 := rfl
@[simp] theorem State.latch_arg (w : Word) (s : State) : (s.latch w).arg = s.arg := rfl
@[simp] theorem State.latch_result (w : Word) (s : State) : (s.latch w).result = s.result := rfl
@[simp] theorem State.latch_src (w : Word) (s : State) : (s.latch w).src = s.src := rfl
@[simp] theorem State.latch_dst (w : Word) (s : State) : (s.latch w).dst = s.dst := rfl
@[simp] theorem State.latch_len (w : Word) (s : State) : (s.latch w).len = s.len := rfl
@[simp] theorem State.latch_inFlight (w : Word) (s : State) : (s.latch w).inFlight = true := rfl
@[simp] theorem State.latch_curCmd (w : Word) (s : State) : (s.latch w).curCmd = w := rfl
@[simp] theorem State.latch_mem (w : Word) (s : State) : (s.latch w).mem = s.mem := rfl
@[simp] theorem State.latch_memSize (w : Word) (s : State) : (s.latch w).memSize = s.memSize := rfl
@[simp] theorem State.latch_rst (w : Word) (s : State) : (s.latch w).rst = s.rst := rfl
@[simp] theorem State.latch_inputs (w : Word) (s : State) : (s.latch w).inputs = s.inputs := rfl
@[simp] theorem State.latch_lastRead (w : Word) (s : State) : (s.latch w).lastRead = s.lastRead := rfl
@[simp] theorem State.latch_draws (w : Word) (s : State) : (s.latch w).draws = s.draws := rfl
@[simp] theorem State.latch_inputTampered (w : Word) (s : State) : (s.latch w).inputTampered = false := rfl
@[simp] theorem State.latch_hostWrote (w : Word) (s : State) : (s.latch w).hostWrote = [] := rfl

/-! ### endCommand -/

@[simp] theorem State.endCommand_irqEn (s : State) : (s.endCommand).irqEn = s.irqEn := rfl
@[simp] theorem State.endCommand_busy (s : State) : (s.endCommand).busy = false := rfl
@[simp] theorem State.endCommand_done (s : State) : (s.endCommand).done = true := rfl
@[simp] theorem State.endCommand_fatal (s : State) : (s.endCommand).fatal = s.fatal := rfl
@[simp] theorem State.endCommand_err (s : State) : (s.endCommand).err = s.err := rfl
@[simp] theorem State.endCommand_arg (s : State) : (s.endCommand).arg = s.arg := rfl
@[simp] theorem State.endCommand_result (s : State) : (s.endCommand).result = s.result := rfl
@[simp] theorem State.endCommand_src (s : State) : (s.endCommand).src = s.src := rfl
@[simp] theorem State.endCommand_dst (s : State) : (s.endCommand).dst = s.dst := rfl
@[simp] theorem State.endCommand_len (s : State) : (s.endCommand).len = s.len := rfl
@[simp] theorem State.endCommand_inFlight (s : State) : (s.endCommand).inFlight = false := rfl
@[simp] theorem State.endCommand_curCmd (s : State) : (s.endCommand).curCmd = Config.freeWord s.draws := rfl
@[simp] theorem State.endCommand_mem (s : State) : (s.endCommand).mem = s.mem := rfl
@[simp] theorem State.endCommand_memSize (s : State) : (s.endCommand).memSize = s.memSize := rfl
@[simp] theorem State.endCommand_rst (s : State) : (s.endCommand).rst = s.rst := rfl
@[simp] theorem State.endCommand_inputs (s : State) : (s.endCommand).inputs = s.inputs := rfl
@[simp] theorem State.endCommand_lastRead (s : State) : (s.endCommand).lastRead = s.lastRead := rfl
@[simp] theorem State.endCommand_draws (s : State) : (s.endCommand).draws = s.draws + 1 := rfl
@[simp] theorem State.endCommand_inputTampered (s : State) : (s.endCommand).inputTampered = false := rfl
@[simp] theorem State.endCommand_hostWrote (s : State) : (s.endCommand).hostWrote = [] := rfl

/-! ### complete -/

@[simp] theorem State.complete_irqEn (r : Option Word) (s : State) : (s.complete r).irqEn = s.irqEn := rfl
@[simp] theorem State.complete_busy (r : Option Word) (s : State) : (s.complete r).busy = false := rfl
@[simp] theorem State.complete_done (r : Option Word) (s : State) : (s.complete r).done = true := rfl
@[simp] theorem State.complete_fatal (r : Option Word) (s : State) : (s.complete r).fatal = s.fatal := rfl
@[simp] theorem State.complete_err (r : Option Word) (s : State) : (s.complete r).err = 0 := rfl
@[simp] theorem State.complete_arg (r : Option Word) (s : State) : (s.complete r).arg = s.arg := rfl
@[simp] theorem State.complete_result (r : Option Word) (s : State) : (s.complete r).result = r.getD s.result := rfl
@[simp] theorem State.complete_src (r : Option Word) (s : State) : (s.complete r).src = s.src := rfl
@[simp] theorem State.complete_dst (r : Option Word) (s : State) : (s.complete r).dst = s.dst := rfl
@[simp] theorem State.complete_len (r : Option Word) (s : State) : (s.complete r).len = s.len := rfl
@[simp] theorem State.complete_inFlight (r : Option Word) (s : State) : (s.complete r).inFlight = false := rfl
@[simp] theorem State.complete_curCmd (r : Option Word) (s : State) : (s.complete r).curCmd = Config.freeWord s.draws := rfl
@[simp] theorem State.complete_mem (r : Option Word) (s : State) : (s.complete r).mem = s.mem := rfl
@[simp] theorem State.complete_memSize (r : Option Word) (s : State) : (s.complete r).memSize = s.memSize := rfl
@[simp] theorem State.complete_rst (r : Option Word) (s : State) : (s.complete r).rst = s.rst := rfl
@[simp] theorem State.complete_inputs (r : Option Word) (s : State) : (s.complete r).inputs = s.inputs := rfl
@[simp] theorem State.complete_lastRead (r : Option Word) (s : State) : (s.complete r).lastRead = s.lastRead := rfl
@[simp] theorem State.complete_draws (r : Option Word) (s : State) : (s.complete r).draws = s.draws + 1 := rfl
@[simp] theorem State.complete_inputTampered (r : Option Word) (s : State) : (s.complete r).inputTampered = false := rfl
@[simp] theorem State.complete_hostWrote (r : Option Word) (s : State) : (s.complete r).hostWrote = [] := rfl

/-! ### raise -/

@[simp] theorem State.raise_irqEn (e : CmdError) (s : State) : (s.raise e).irqEn = s.irqEn := rfl
@[simp] theorem State.raise_busy (e : CmdError) (s : State) : (s.raise e).busy = false := rfl
@[simp] theorem State.raise_done (e : CmdError) (s : State) : (s.raise e).done = true := rfl
@[simp] theorem State.raise_fatal (e : CmdError) (s : State) : (s.raise e).fatal = s.fatal := rfl
@[simp] theorem State.raise_err (e : CmdError) (s : State) : (s.raise e).err = e.code := rfl
@[simp] theorem State.raise_arg (e : CmdError) (s : State) : (s.raise e).arg = s.arg := rfl
@[simp] theorem State.raise_result (e : CmdError) (s : State) : (s.raise e).result = s.result := rfl
@[simp] theorem State.raise_src (e : CmdError) (s : State) : (s.raise e).src = s.src := rfl
@[simp] theorem State.raise_dst (e : CmdError) (s : State) : (s.raise e).dst = s.dst := rfl
@[simp] theorem State.raise_len (e : CmdError) (s : State) : (s.raise e).len = s.len := rfl
@[simp] theorem State.raise_inFlight (e : CmdError) (s : State) : (s.raise e).inFlight = false := rfl
@[simp] theorem State.raise_curCmd (e : CmdError) (s : State) : (s.raise e).curCmd = Config.freeWord s.draws := rfl
@[simp] theorem State.raise_mem (e : CmdError) (s : State) : (s.raise e).mem = s.mem := rfl
@[simp] theorem State.raise_memSize (e : CmdError) (s : State) : (s.raise e).memSize = s.memSize := rfl
@[simp] theorem State.raise_rst (e : CmdError) (s : State) : (s.raise e).rst = s.rst := rfl
@[simp] theorem State.raise_inputs (e : CmdError) (s : State) : (s.raise e).inputs = s.inputs := rfl
@[simp] theorem State.raise_lastRead (e : CmdError) (s : State) : (s.raise e).lastRead = s.lastRead := rfl
@[simp] theorem State.raise_draws (e : CmdError) (s : State) : (s.raise e).draws = s.draws + 1 := rfl
@[simp] theorem State.raise_inputTampered (e : CmdError) (s : State) : (s.raise e).inputTampered = false := rfl
@[simp] theorem State.raise_hostWrote (e : CmdError) (s : State) : (s.raise e).hostWrote = [] := rfl

/-! ### raiseInconsistent -/

@[simp] theorem State.raiseInconsistent_irqEn (base n : Nat) (s : State) : (s.raiseInconsistent base n).irqEn = s.irqEn := rfl
@[simp] theorem State.raiseInconsistent_busy (base n : Nat) (s : State) : (s.raiseInconsistent base n).busy = false := rfl
@[simp] theorem State.raiseInconsistent_done (base n : Nat) (s : State) : (s.raiseInconsistent base n).done = true := rfl
@[simp] theorem State.raiseInconsistent_fatal (base n : Nat) (s : State) : (s.raiseInconsistent base n).fatal = true := rfl
@[simp] theorem State.raiseInconsistent_err (base n : Nat) (s : State) : (s.raiseInconsistent base n).err = inconsistencyCode := rfl
@[simp] theorem State.raiseInconsistent_arg (base n : Nat) (s : State) : (s.raiseInconsistent base n).arg = s.arg := rfl
@[simp] theorem State.raiseInconsistent_result (base n : Nat) (s : State) : (s.raiseInconsistent base n).result = s.result := rfl
@[simp] theorem State.raiseInconsistent_src (base n : Nat) (s : State) : (s.raiseInconsistent base n).src = s.src := rfl
@[simp] theorem State.raiseInconsistent_dst (base n : Nat) (s : State) : (s.raiseInconsistent base n).dst = s.dst := rfl
@[simp] theorem State.raiseInconsistent_len (base n : Nat) (s : State) : (s.raiseInconsistent base n).len = s.len := rfl
@[simp] theorem State.raiseInconsistent_inFlight (base n : Nat) (s : State) : (s.raiseInconsistent base n).inFlight = false := rfl
@[simp] theorem State.raiseInconsistent_curCmd (base n : Nat) (s : State) : (s.raiseInconsistent base n).curCmd = Config.freeWord s.draws := rfl
@[simp] theorem State.raiseInconsistent_mem (base n : Nat) (s : State) : (s.raiseInconsistent base n).mem = s.mem.writeBytes base (s.freeBytes base n) := rfl
@[simp] theorem State.raiseInconsistent_memSize (base n : Nat) (s : State) : (s.raiseInconsistent base n).memSize = s.memSize := rfl
@[simp] theorem State.raiseInconsistent_rst (base n : Nat) (s : State) : (s.raiseInconsistent base n).rst = s.rst := rfl
@[simp] theorem State.raiseInconsistent_inputs (base n : Nat) (s : State) : (s.raiseInconsistent base n).inputs = s.inputs := rfl
@[simp] theorem State.raiseInconsistent_lastRead (base n : Nat) (s : State) : (s.raiseInconsistent base n).lastRead = s.lastRead := rfl
@[simp] theorem State.raiseInconsistent_draws (base n : Nat) (s : State) : (s.raiseInconsistent base n).draws = s.draws + 1 := rfl
@[simp] theorem State.raiseInconsistent_inputTampered (base n : Nat) (s : State) : (s.raiseInconsistent base n).inputTampered = false := rfl
@[simp] theorem State.raiseInconsistent_hostWrote (base n : Nat) (s : State) : (s.raiseInconsistent base n).hostWrote = [] := rfl

/-! ### resetCore -/

@[simp] theorem State.resetCore_irqEn (s : State) : (s.resetCore).irqEn = false := rfl
@[simp] theorem State.resetCore_busy (s : State) : (s.resetCore).busy = false := rfl
@[simp] theorem State.resetCore_done (s : State) : (s.resetCore).done = false := rfl
@[simp] theorem State.resetCore_fatal (s : State) : (s.resetCore).fatal = false := rfl
@[simp] theorem State.resetCore_err (s : State) : (s.resetCore).err = 0 := rfl
@[simp] theorem State.resetCore_arg (s : State) : (s.resetCore).arg = 0 := rfl
@[simp] theorem State.resetCore_result (s : State) : (s.resetCore).result = 0 := rfl
@[simp] theorem State.resetCore_src (s : State) : (s.resetCore).src = 0 := rfl
@[simp] theorem State.resetCore_dst (s : State) : (s.resetCore).dst = 0 := rfl
@[simp] theorem State.resetCore_len (s : State) : (s.resetCore).len = 0 := rfl
@[simp] theorem State.resetCore_inFlight (s : State) : (s.resetCore).inFlight = false := rfl
@[simp] theorem State.resetCore_curCmd (s : State) : (s.resetCore).curCmd = 0 := rfl
@[simp] theorem State.resetCore_mem (s : State) : (s.resetCore).mem = s.mem := rfl
@[simp] theorem State.resetCore_memSize (s : State) : (s.resetCore).memSize = s.memSize := rfl
@[simp] theorem State.resetCore_rst (s : State) : (s.resetCore).rst = s.rst := rfl
@[simp] theorem State.resetCore_inputs (s : State) : (s.resetCore).inputs = s.inputs := rfl
@[simp] theorem State.resetCore_lastRead (s : State) : (s.resetCore).lastRead = s.lastRead := rfl
@[simp] theorem State.resetCore_draws (s : State) : (s.resetCore).draws = s.draws := rfl
@[simp] theorem State.resetCore_inputTampered (s : State) : (s.resetCore).inputTampered = false := rfl
@[simp] theorem State.resetCore_hostWrote (s : State) : (s.resetCore).hostWrote = [] := rfl

/-! ### withFetchWord -/

@[simp] theorem State.withFetchWord_irqEn (s : State) (nbits w : Nat) :
    (s.withFetchWord nbits w).irqEn = s.irqEn := rfl
@[simp] theorem State.withFetchWord_busy (s : State) (nbits w : Nat) :
    (s.withFetchWord nbits w).busy = true := rfl
@[simp] theorem State.withFetchWord_done (s : State) (nbits w : Nat) :
    (s.withFetchWord nbits w).done = false := rfl
@[simp] theorem State.withFetchWord_fatal (s : State) (nbits w : Nat) :
    (s.withFetchWord nbits w).fatal = s.fatal := rfl
@[simp] theorem State.withFetchWord_err (s : State) (nbits w : Nat) :
    (s.withFetchWord nbits w).err = 0 := rfl
@[simp] theorem State.withFetchWord_arg (s : State) (nbits w : Nat) :
    (s.withFetchWord nbits w).arg = s.arg := rfl
@[simp] theorem State.withFetchWord_result (s : State) (nbits w : Nat) :
    (s.withFetchWord nbits w).result = s.result := rfl
@[simp] theorem State.withFetchWord_src (s : State) (nbits w : Nat) :
    (s.withFetchWord nbits w).src = s.src := rfl
@[simp] theorem State.withFetchWord_dst (s : State) (nbits w : Nat) :
    (s.withFetchWord nbits w).dst = s.dst := rfl
@[simp] theorem State.withFetchWord_len (s : State) (nbits w : Nat) :
    (s.withFetchWord nbits w).len = s.len := rfl
@[simp] theorem State.withFetchWord_inFlight (s : State) (nbits w : Nat) :
    (s.withFetchWord nbits w).inFlight = true := rfl
@[simp] theorem State.withFetchWord_curCmd (s : State) (nbits w : Nat) :
    (s.withFetchWord nbits w).curCmd = BitVec.ofNat 32 (w % 2 ^ nbits) := rfl
@[simp] theorem State.withFetchWord_mem (s : State) (nbits w : Nat) :
    (s.withFetchWord nbits w).mem = s.mem := rfl
@[simp] theorem State.withFetchWord_memSize (s : State) (nbits w : Nat) :
    (s.withFetchWord nbits w).memSize = s.memSize := rfl
@[simp] theorem State.withFetchWord_rst (s : State) (nbits w : Nat) :
    (s.withFetchWord nbits w).rst = false := rfl
@[simp] theorem State.withFetchWord_inputs (s : State) (nbits w : Nat) :
    (s.withFetchWord nbits w).inputs = .core :: s.inputs := rfl
@[simp] theorem State.withFetchWord_lastRead (s : State) (nbits w : Nat) :
    (s.withFetchWord nbits w).lastRead = s.lastRead := rfl
@[simp] theorem State.withFetchWord_draws (s : State) (nbits w : Nat) :
    (s.withFetchWord nbits w).draws = s.draws := rfl
@[simp] theorem State.withFetchWord_inputTampered (s : State) (nbits w : Nat) :
    (s.withFetchWord nbits w).inputTampered = false := rfl
@[simp] theorem State.withFetchWord_hostWrote (s : State) (nbits w : Nat) :
    (s.withFetchWord nbits w).hostWrote = [] := rfl

end Sys2Proof.Machine
end

