-- ==== Sys2Proof/Laws/Ops.lean ====
section
/-! SUPPORT. What each shared operation can do, said once: the output bytes under the ownership duty, the ranges of a memory command,
and the end of a command. -/

namespace Sys2Proof.Machine

@[simp] theorem State.length_settle (s : State) : ∀ (vs : List Byte) (base : Nat), (s.settle base vs).length = vs.length
  | [], _ => rfl
  | _ :: vs, base => by simp [State.settle, State.length_settle s vs]

@[simp] theorem State.length_freeBytes (s : State) : ∀ (n base : Nat), (s.freeBytes base n).length = n
  | 0, _ => rfl
  | n + 1, base => by simp [State.freeBytes, State.length_freeBytes s n]

@[simp] theorem State.length_landed (s : State) : ∀ (vs : List Byte) (base : Nat), (s.landed base vs).length = vs.length
  | [], _ => rfl
  | _ :: vs, base => by simp [State.landed, State.length_landed s vs]

/-- While the host keeps its duty a command's output is what the command computes. -/
theorem State.settle_of_untouched {s : State} (h : s.Untouched) : ∀ (vs : List Byte) (base : Nat), s.settle base vs = vs
  | [], _ => rfl
  | v :: vs, base => by simp [State.settle, State.settleByte, h.input, h.output, State.settle_of_untouched h vs]

theorem fits_iff (x : Nat) : fits x = true ↔ x ≤ 4294967295 := by
  unfold fits
  exact decide_eq_true_iff

theorem rangeOk_iff (memSize base size : Nat) : rangeOk memSize base size = true ↔ size = 0 ∨ base + size ≤ memSize := by
  simp [rangeOk]

theorem overlap_iff (a m b n : Nat) : overlap a m b n = true ↔ 0 < m ∧ 0 < n ∧ a < b + n ∧ b < a + m := by
  simp [overlap, and_assoc]

/-- The ranges of a memory command are there exactly when every check passes (60_exceptions.md R177). -/
theorem State.ranges_eq_some {s : State} {m n : Nat} {r : Ranges} :
    s.ranges m n = some r ↔ s.RangesPass m n ∧ r = ⟨s.src.toNat, m, s.dst.toNat, n⟩ := by
  unfold State.ranges
  constructor
  · intro h
    split_ifs at h with h1 h2 h3 h4
    simp only [Bool.or_eq_true, Bool.not_eq_true', not_or, Bool.not_eq_false, Bool.not_eq_true] at h1 h2 h3 h4
    exact ⟨⟨h1.1, h1.2, h2, h3, h4⟩, (Option.some.inj h).symm⟩
  · rintro ⟨h, rfl⟩
    simp [h.fits_in, h.fits_out, h.src_ok, h.dst_ok, h.disjoint]

/-- What the end of a command leaves: a completion with its output written, an error with nothing changed but STATUS, or the fatal
error. -/
theorem State.finish_cases (e : CmdEnd) (s : State) :
    (∃ r base out, e = .complete r base out ∧
        s.finish e = State.complete r { s with mem := s.mem.writeBytes base (s.settle base out) }) ∨
      (∃ c, e = .raise c ∧ s.finish e = s.raise c) ∨
      (∃ base n, e = .inconsistent base n ∧ s.finish e = s.raiseInconsistent base n) := by
  cases e with
  | complete r base out => exact .inl ⟨r, base, out, rfl, rfl⟩
  | raise c => exact .inr (.inl ⟨c, rfl, rfl⟩)
  | inconsistent base n => exact .inr (.inr ⟨base, n, rfl, rfl⟩)

/-- `raise` in the words of the statements. -/
theorem State.raise_refused (c : CmdError) (s : State) : RefusedWith c.code s (s.raise c) :=
  ⟨⟨rfl, rfl, rfl, rfl⟩, ⟨rfl, rfl, rfl, rfl, rfl, rfl, rfl, rfl, rfl, rfl⟩, rfl, rfl⟩

/-- `complete` in the words of the statements. -/
theorem State.complete_ended (r : Option Word) (s : State) : EndedWith 0 (s.complete r) := ⟨rfl, rfl, rfl, rfl⟩

/-- `complete` changes nothing around STATUS and RESULT. -/
theorem State.complete_around (r : Option Word) (s : State) : SameAround s (s.complete r) :=
  ⟨rfl, rfl, rfl, rfl, rfl, rfl, rfl, rfl, rfl, rfl⟩

/-- Acceptance has three cases (60_exceptions.md R178). -/
theorem State.accept_cases (w : Word) (s : State) :
    (s.fatal = true ∧ s.accept w = s) ∨ (s.fatal = false ∧ s.busy = true ∧ s.accept w = s) ∨
      (s.fatal = false ∧ s.busy = false ∧ s.accept w = s.latch w) := by
  cases hf : s.fatal <;> cases hb : s.busy <;> simp [State.accept, hf, hb]

/-- Reset gives the core its reset values (10_state.md R44). -/
theorem State.resetCore_atReset (s : State) : s.resetCore.AtReset :=
  ⟨rfl, rfl, rfl, rfl, rfl, rfl, rfl, rfl, rfl, rfl, rfl⟩

end Sys2Proof.Machine
end

