-- ==== Sys2Proof/Laws/Step.lean ====
section
/-! SUPPORT. What a step can do, said once: a command's meaning is its end, and a step is one event or the core's turn. -/

namespace Sys2Proof.Machine

/-- Every command's meaning is a next state: the state in which it ended. -/
theorem exec_eq_finish (i : Instr) (s : State) : exec i s = .next (s.finish (planOf i s)) := by
  cases i <;> rfl

theorem exec_next {i : Instr} {s t : State} (h : exec i s = .next t) : t = s.finish (planOf i s) := by
  rw [exec_eq_finish] at h
  injection h with h
  exact h.symm

/-- The core's turn with the word w in flight. -/
theorem runWord_ok {w : Word} {i : Instr} (h : decodeCmd w = .ok i) (s : State) : runWord w s = exec i s := by
  simp [runWord, h]

theorem runWord_error {w : Word} {r : DecodeReject} (h : decodeCmd w = .error r) (s : State) :
    runWord w s = .next (s.raise .illegalCommand) := by
  simp [runWord, h]

/-- What the core's turn can do. -/
theorem coreTurn_cases (s : State) :
    ((s.rst = true ∨ s.inFlight = false) ∧ coreTurn s = .next s) ∨
      (s.rst = false ∧ s.inFlight = true ∧ ∃ i, decodeCmd s.curCmd = .ok i ∧ coreTurn s = .next (s.finish (planOf i s))) ∨
      (s.rst = false ∧ s.inFlight = true ∧ ∃ r, decodeCmd s.curCmd = .error r ∧ coreTurn s = .next (s.raise .illegalCommand)) := by
  unfold coreTurn
  cases hr : s.rst with
  | true => simp
  | false =>
    cases hf : s.inFlight with
    | false => simp
    | true =>
      cases hd : decodeCmd s.curCmd with
      | ok i => exact .inr (.inl ⟨rfl, rfl, i, rfl, by simp [runWord_ok hd, exec_eq_finish]⟩)
      | error r => exact .inr (.inr ⟨rfl, rfl, r, rfl, by simp [runWord_error hd]⟩)

theorem step_nil {s : State} (h : s.inputs = []) : step s = coreTurn s := by simp [step, h]

theorem step_cons {s : State} {e : Event} {rest : List Event} (h : s.inputs = e :: rest) :
    step s = happen e { s with inputs := rest } := by simp [step, h]

/-- The register a window access names, exactly when the access is a naturally aligned 32-bit access (10_state.md R36). -/
theorem regAt_isSome (width : Nat) (offset : BitVec 6) :
    (regAt width offset).isSome = (width == 4 && offset.toNat % 4 == 0) := by
  unfold regAt
  split_ifs with h
  · rcases h with h | h <;> simp [h]
  · simp only [not_or, not_not] at h
    simp only [h.1, h.2, beq_self_eq_true, Bool.and_self]
    split <;> rfl

end Sys2Proof.Machine
end

