-- ==== Sys2Proof/Machine/HostProgram.lean ====
section
/-! DEFINITION. The host program notation (30_encoding.md R86 to R88) as lists of events. Host control flow is the host's: the poll
loop of `wait` is given by the core's turn and the one STATUS read that leaves the loop (log 2). -/

namespace Sys2Proof.Machine

/-- The offset of a register in the window (10_state.md R21); the first of the reserved offsets for `reserved`. -/
def Reg.offset : Reg → BitVec 6
  | .id => 0x00
  | .ctrl => 0x04
  | .status => 0x08
  | .cmd => 0x0C
  | .arg => 0x10
  | .result => 0x14
  | .src => 0x18
  | .dst => 0x1C
  | .len => 0x20
  | .reserved => 0x24

/-- `wr REG, v` (R86). -/
def Reg.wr (r : Reg) (v : Word) : Event := .regWrite 4 r.offset v

/-- `rd REG` (R86). -/
def Reg.rd (r : Reg) : Event := .regRead 4 r.offset

/-- `mw a, [b0, b1, ...]` (R86). Past 0xFFFFFFFF the next address is 0: DESIGN CHOICE, log 11, the spec gives host accesses there no
meaning. -/
def hostMw (a : Word) : List Byte → List Event
  | [] => []
  | b :: bs => .memWrite a b :: hostMw (a + 1) bs

/-- `mr a, n` (R86). Past 0xFFFFFFFF the next address is 0: DESIGN CHOICE, log 11, as for `hostMw`. -/
def hostMr (a : Word) : Nat → List Event
  | 0 => []
  | n + 1 => .memRead a :: hostMr (a + 1) n

/-- A command mnemonic: one CMD write (R87). -/
def hostCommand (i : Instr) : Event := Reg.wr .cmd (encode i)

/-- `wait` (R88): the core's turn, then the read of STATUS that shows BUSY = 0. -/
def hostWait : List Event := [.core, Reg.rd .status]

/-- `ack` (R88). -/
def hostAck : Event := Reg.wr .status 2

/-- `encsym v` (R88). -/
def hostEncsym (v : Word) : List Event := [Reg.wr .arg v, hostCommand .encSym] ++ hostWait ++ [Reg.rd .result]

/-- `decsym c` (R88). -/
def hostDecsym (c : Word) : List Event := [Reg.wr .arg c, hostCommand .decSym] ++ hostWait ++ [Reg.rd .result]

/-- `encmsg`, `decmsg`, `pack`, `unpack` (R88): SRC, DST and LEN written, then the command. -/
def hostMemCommand (i : Instr) (s d n : Word) : List Event :=
  [Reg.wr .src s, Reg.wr .dst d, Reg.wr .len n, hostCommand i] ++ hostWait

/-- `enclen L` (R88). -/
def hostEnclen (n : Word) : List Event := [Reg.wr .len n, hostCommand .encLen] ++ hostWait ++ [Reg.rd .result]

end Sys2Proof.Machine
end

