-- ==== Sys2Proof/Laws/Bus.lean ====
section
/-! SUPPORT. The register window, said once: which access names which register, and what a host access then does. -/

namespace Sys2Proof.Machine

/-- An access names one of the nine registers exactly when it is four bytes wide at that register's offset (10_state.md R21). -/
theorem regAt_eq_some {width : Nat} {offset : BitVec 6} {r : Reg} (hr : r ≠ .reserved) :
    regAt width offset = some r ↔ width = 4 ∧ offset = r.offset := by
  by_cases hw : width = 4
  · subst hw
    have key : ∀ o : BitVec 6, ∀ r ∈ [Reg.id, .ctrl, .status, .cmd, .arg, .result, .src, .dst, .len],
        regAt 4 o = some r ↔ o = r.offset := by decide
    simpa using key offset r (by cases r <;> simp at hr ⊢)
  · simp [regAt, hw]

/-- The reserved offsets (10_state.md R35). -/
theorem regAt_eq_reserved {width : Nat} {offset : BitVec 6} :
    regAt width offset = some .reserved ↔ width = 4 ∧ offset.toNat % 4 = 0 ∧ 0x24 ≤ offset.toNat := by
  by_cases hw : width = 4
  · subst hw
    have key : ∀ o : BitVec 6, regAt 4 o = some .reserved ↔ o.toNat % 4 = 0 ∧ 0x24 ≤ o.toNat := by decide
    simpa using key offset
  · simp [regAt, hw]

theorem hostWriteReg_of_regAt {n : Nat} {o : BitVec 6} {r : Reg} {s : State} (h : regAt n o = some r) (hr : s.rst = false)
    (w : Word) : hostWriteReg n o w s = .next (s.writeReg r w) := by
  simp [hostWriteReg, h, hr]

theorem hostWriteReg_in_reset {n : Nat} {o : BitVec 6} {r : Reg} {s : State} (h : regAt n o = some r) (hr : s.rst = true)
    (w : Word) : hostWriteReg n o w s = .next s := by
  simp [hostWriteReg, h, hr]

theorem hostReadReg_of_regAt {n : Nat} {o : BitVec 6} {r : Reg} {s : State} (h : regAt n o = some r) (hr : s.rst = false) :
    hostReadReg n o s = .next { s with lastRead := some (.reg o (s.readReg r)) } := by
  simp [hostReadReg, h, hr]

/-- A host write that answers a next state had no effect under reset, or wrote the register it names. -/
theorem hostWriteReg_next {n : Nat} {o : BitVec 6} {w : Word} {s t : State} (h : hostWriteReg n o w s = .next t) :
    ∃ r, regAt n o = some r ∧ ((s.rst = true ∧ t = s) ∨ (s.rst = false ∧ t = s.writeReg r w)) := by
  cases hr : regAt n o with
  | none => simp [hostWriteReg, hr] at h
  | some r =>
    refine ⟨r, rfl, ?_⟩
    cases hs : s.rst with
    | true => exact .inl ⟨rfl, by simpa [hostWriteReg, hr, hs] using h.symm⟩
    | false => exact .inr ⟨rfl, by simpa [hostWriteReg, hr, hs] using h.symm⟩

/-- A host read that answers a next state changed only the reply and the number of draws. -/
theorem hostReadReg_next {n : Nat} {o : BitVec 6} {s t : State} (h : hostReadReg n o s = .next t) :
    (regAt n o).isSome = true ∧ ∃ v k, t = { s with lastRead := some (.reg o v), draws := k } := by
  cases hr : regAt n o with
  | none => simp [hostReadReg, hr] at h
  | some r =>
    refine ⟨rfl, ?_⟩
    cases hs : s.rst with
    | true => exact ⟨_, s.draws + 1, by simpa [hostReadReg, hr, hs] using h.symm⟩
    | false => exact ⟨_, s.draws, by simpa [hostReadReg, hr, hs] using h.symm⟩

/-- A host byte read that answers a next state changed only the reply and the number of draws. -/
theorem hostReadByte_next {a : Word} {s t : State} (h : hostReadByte a s = .next t) :
    a.toNat < s.memSize ∧ ∃ v k, t = { s with lastRead := some (.byte a v), draws := k } := by
  unfold hostReadByte at h
  by_cases hm : s.memSize ≤ a.toNat
  · simp [hm] at h
  rw [if_neg hm] at h
  refine ⟨by omega, ?_⟩
  split at h
  · exact ⟨_, s.draws, by simpa using h.symm⟩
  · exact ⟨_, s.draws + 1, by simpa using h.symm⟩

/-- A host byte write that answers a next state wrote the byte and, with a command that has ranges in flight, kept account of it. -/
theorem hostWriteByte_next {a : Word} {v : Byte} {s t : State} (h : hostWriteByte a v s = .next t) :
    a.toNat < s.memSize ∧
      ((s.flightRanges = none ∧ t = { s with mem := s.mem.write a.toNat v }) ∨
        ∃ r, s.flightRanges = some r ∧ t = { s with
          mem := s.mem.write a.toNat v,
          inputTampered := s.inputTampered || r.inputHas a.toNat,
          hostWrote := if r.outputHas a.toNat then a.toNat :: s.hostWrote else s.hostWrote }) := by
  unfold hostWriteByte at h
  split_ifs at h with hm
  refine ⟨by omega, ?_⟩
  split at h
  next hf => exact .inl ⟨hf, by simpa using h.symm⟩
  next r hf => exact .inr ⟨r, hf, by simpa using h.symm⟩

/-- Only a command in flight has ranges. -/
theorem inFlight_of_flightRanges {s : State} {r : Ranges} (h : s.flightRanges = some r) : s.inFlight = true := by
  cases hf : s.inFlight with
  | true => rfl
  | false => simp [State.flightRanges, State.flight, hf] at h

/-- The command in flight, once its word is decoded. -/
theorem flight_of_decode {s : State} {i : Instr} (hf : s.inFlight = true) (hd : decodeCmd s.curCmd = .ok i) :
    s.flight = some i := by
  simp [State.flight, hf, hd, Except.toOption]

end Sys2Proof.Machine
end

