-- ==== Sys2Proof/Laws/Packer.lean ====
section
/-! SUPPORT. The lengths of packed and unpacked sequences (41_message_packer.md R130, R134, R137). -/

namespace Sys2Proof.Machine

/-! ### Nibbles and bytes of a symbol -/

theorem getLsbD_lowByte (s : Symbol) {i : Nat} (h : i < 8) : (lowByte s).getLsbD i = s.getLsbD i := by simp [lowByte, h]

theorem getLsbD_highNibble (s : Symbol) {i : Nat} (h : i < 4) : (highNibble s).getLsbD i = s.getLsbD (8 + i) := by
  simp [highNibble, h]

theorem getLsbD_joinNibbles (hi lo : BitVec 4) (i : Nat) :
    (joinNibbles hi lo).getLsbD i = if i < 4 then lo.getLsbD i else hi.getLsbD (i - 4) := by
  refine (BitVec.getLsbD_append (x := hi) (y := lo) (i := i)).trans ?_
  by_cases h : i < 4 <;> simp [h]

theorem getLsbD_joinSymbol (hi : BitVec 4) (lo : Byte) (i : Nat) :
    (joinSymbol hi lo).getLsbD i = if i < 8 then lo.getLsbD i else hi.getLsbD (i - 8) := by
  refine (BitVec.getLsbD_append (x := hi) (y := lo) (i := i)).trans ?_
  by_cases h : i < 8 <;> simp [h]

@[simp] theorem joinSymbol_parts (s : Symbol) : joinSymbol (highNibble s) (lowByte s) = s := by
  apply BitVec.eq_of_getLsbD_eq
  intro i hi
  rw [getLsbD_joinSymbol]
  split_ifs with h
  · exact getLsbD_lowByte s h
  · rw [getLsbD_highNibble s (by omega)]
    congr 1
    omega

@[simp] theorem lowByte_joinSymbol (hi : BitVec 4) (lo : Byte) : lowByte (joinSymbol hi lo) = lo := by
  apply BitVec.eq_of_getLsbD_eq
  intro i h
  rw [getLsbD_lowByte _ h, getLsbD_joinSymbol, if_pos h]

@[simp] theorem highNibble_joinSymbol (hi : BitVec 4) (lo : Byte) : highNibble (joinSymbol hi lo) = hi := by
  apply BitVec.eq_of_getLsbD_eq
  intro i h
  rw [getLsbD_highNibble _ h, getLsbD_joinSymbol, if_neg (by omega)]
  congr 1
  omega

@[simp] theorem loNibble_joinNibbles : ∀ hi lo : BitVec 4, loNibble (joinNibbles hi lo) = lo := by decide

@[simp] theorem hiNibble_joinNibbles : ∀ hi lo : BitVec 4, hiNibble (joinNibbles hi lo) = hi := by decide

@[simp] theorem loNibble_setWidth : ∀ n : BitVec 4, loNibble (n.setWidth 8) = n := by decide

@[simp] theorem joinNibbles_parts (v : Byte) : joinNibbles (hiNibble v) (loNibble v) = v := by
  apply BitVec.eq_of_getLsbD_eq
  intro i hi
  rw [getLsbD_joinNibbles]
  split_ifs with h
  · simp [loNibble, h]
  · have h' : i - 4 < 4 := by omega
    simp [hiNibble, h', show 4 + (i - 4) = i by omega]

/-! ### Lengths -/

@[simp] theorem encLen_zero : encLen 0 = 0 := rfl
@[simp] theorem encLen_one : encLen 1 = 2 := rfl

/-- One more pair of symbols takes three more bytes (R130). -/
theorem encLen_add_two (n : Nat) : encLen (n + 2) = encLen n + 3 := by
  simp only [encLen, Nat.add_mod_right]
  omega

/-- The length function without its cases. -/
theorem encLen_eq (n : Nat) : encLen n = (3 * n + 1) / 2 := by
  unfold encLen
  split <;> omega

theorem length_packSymbols (s : List Symbol) : (packSymbols s).length = encLen s.length := by
  induction s using packSymbols.induct with
  | case1 a b rest ih => simp [packSymbols, ih, encLen_add_two]
  | case2 t => simp [packSymbols]
  | case3 => simp [packSymbols]

@[simp] theorem length_encodeMessage (d : List Byte) : (encodeMessage d).length = encLen d.length := by
  simp [encodeMessage, length_packSymbols]

theorem length_unpackBytes (b : List Byte) (n : Nat) (h : encLen n ≤ b.length) : (unpackBytes b n).length = n := by
  induction b, n using unpackBytes.induct with
  | case1 => simp [unpackBytes]
  | case2 => simp [unpackBytes]
  | case3 a b c rest n ih =>
    rw [encLen_add_two] at h
    simp [unpackBytes, ih (by simpa using h)]
  | case4 b n h0 h1 h2 =>
    exfalso
    match b, n with
    | _, 0 => exact h0 rfl
    | [], 1 => simp at h
    | [_], 1 => simp at h
    | lo :: hi :: rest, 1 => exact h1 lo hi rest rfl rfl
    | [], n + 2 => simp [encLen_add_two] at h
    | [_], n + 2 => simp [encLen_add_two] at h
    | [_, _], n + 2 => simp [encLen_add_two] at h
    | a :: b :: c :: rest, n + 2 => exact h2 a b c rest n rfl rfl

@[simp] theorem length_containersImage : ∀ s : List Symbol, (containersImage s).length = 2 * s.length
  | [] => rfl
  | s :: rest => by
    simp only [containersImage, containerBytes, List.length_append, List.length_cons, List.length_nil,
      length_containersImage rest]
    omega

@[simp] theorem Memory.length_readContainers (m : Memory) : ∀ (n base : Nat), (m.readContainers base n).length = n
  | 0, _ => rfl
  | n + 1, base => by simp [Memory.readContainers, Memory.length_readContainers m n]

end Sys2Proof.Machine
end

