-- ==== Sys2Proof/Laws/PerInstr.lean ====
section
/-! SUPPORT. Statements made for all instructions, one lemma per constructor of Instr. -/

/-- The command's word is legal and decodes to the command (30_encoding.md R82, R83). -/
def Sys2Proof.Laws.LegalWord.Statement (i : Sys2Proof.Instr) : Prop :=
  Sys2Proof.CmdWord.legal (Sys2Proof.encode i) = true ∧ Sys2Proof.decodeCmd (Sys2Proof.encode i) = .ok i

namespace Sys2Proof.Laws.LegalWord

theorem nop : Statement .nop := ⟨by decide, rfl⟩
theorem encSym : Statement .encSym := ⟨by decide, rfl⟩
theorem decSym : Statement .decSym := ⟨by decide, rfl⟩
theorem encMsg : Statement .encMsg := ⟨by decide, rfl⟩
theorem decMsg : Statement .decMsg := ⟨by decide, rfl⟩
theorem pack : Statement .pack := ⟨by decide, rfl⟩
theorem unpack : Statement .unpack := ⟨by decide, rfl⟩
theorem encLen : Statement .encLen := ⟨by decide, rfl⟩

end Sys2Proof.Laws.LegalWord
end

