-- ==== Sys2Proof/Laws/Plans.lean ====
section
/-! SUPPORT. How each command ends, said once: with BadRange when a check fails, otherwise with the output the command computes; the
length postcondition never fails (41_message_packer.md R143, R145 to R149). -/

namespace Sys2Proof.Machine

/-- The ranges of the command are those of its sizes. -/
theorem rangesOf_eq_some {i : Instr} {s : State} {r : Ranges} :
    rangesOf i s = some r ↔ ∃ m n, commandSizes i s.len.toNat = some (m, n) ∧ s.RangesPass m n ∧
      r = ⟨s.src.toNat, m, s.dst.toNat, n⟩ := by
  cases i <;>
    simp [rangesOf, commandSizes, encMsgRanges, decMsgRanges, packRanges, unpackRanges, State.ranges_eq_some, and_assoc]

theorem State.ranges_eq_none {s : State} {m n : Nat} (h : ¬s.RangesPass m n) : s.ranges m n = none := by
  rw [Option.eq_none_iff_forall_not_mem]
  intro r hr
  exact h (State.ranges_eq_some.1 hr).1

theorem State.ranges_of_pass {s : State} {m n : Nat} (h : s.RangesPass m n) :
    s.ranges m n = some ⟨s.src.toNat, m, s.dst.toNat, n⟩ := State.ranges_eq_some.2 ⟨h, rfl⟩

/-- A memory command whose checks do not all pass ends with BadRange. -/
theorem planOf_bad {i : Instr} {s : State} {m n : Nat} (hi : commandSizes i s.len.toNat = some (m, n))
    (h : ¬s.RangesPass m n) : planOf i s = .raise .badRange := by
  have hr := State.ranges_eq_none h
  cases i <;> simp only [commandSizes, reduceCtorEq, Option.some.injEq, Prod.mk.injEq] at hi <;> obtain ⟨rfl, rfl⟩ := hi <;>
    simp [planOf, planEncMsg, planDecMsg, planPack, planUnpack, encMsgRanges, decMsgRanges, packRanges, unpackRanges, hr]

theorem planEncMsg_pass {s : State} (h : s.RangesPass s.len.toNat (encLen s.len.toNat)) :
    planEncMsg s = .complete (some (toReg (encLen s.len.toNat))) s.dst.toNat
      (encodeMessage (s.mem.readBytes s.src.toNat s.len.toNat)) := by
  simp [planEncMsg, encMsgRanges, State.ranges_of_pass h, checkedEnd]

theorem planDecMsg_pass {s : State} (h : s.RangesPass (encLen s.len.toNat) s.len.toNat) :
    planDecMsg s = .complete (some (toReg s.len.toNat)) s.dst.toNat
      (decodeMessage (s.mem.readBytes s.src.toNat (encLen s.len.toNat)) s.len.toNat) := by
  simp [planDecMsg, decMsgRanges, State.ranges_of_pass h, checkedEnd, length_unpackBytes, decodeMessage]

theorem planUnpack_pass {s : State} (h : s.RangesPass (encLen s.len.toNat) (2 * s.len.toNat)) :
    planUnpack s = .complete (some (toReg (2 * s.len.toNat))) s.dst.toNat
      (containersImage (unpackBytes (s.mem.readBytes s.src.toNat (encLen s.len.toNat)) s.len.toNat)) := by
  simp [planUnpack, unpackRanges, State.ranges_of_pass h, checkedEnd, length_unpackBytes]

theorem planPack_pass {s : State} (h : s.RangesPass (2 * s.len.toNat) (encLen s.len.toNat)) :
    planPack s = if packRefuses s then .raise .invalidInput else
      .complete (some (toReg (encLen s.len.toNat))) s.dst.toNat
        (packSymbols ((packContainers s).map Container.symbol)) := by
  simp [planPack, packRanges, State.ranges_of_pass h, checkedEnd, length_packSymbols, packContainers]

/-- A memory command whose checks all pass completes with n output bytes from DST on, or is a PACK that refuses. -/
theorem planOf_pass {i : Instr} {s : State} {m n : Nat} (hi : commandSizes i s.len.toNat = some (m, n))
    (h : s.RangesPass m n) :
    (∃ out, planOf i s = .complete (some (toReg n)) s.dst.toNat out ∧ out.length = n) ∨
      (i = .pack ∧ packRefuses s = true ∧ planOf i s = .raise .invalidInput) := by
  cases i <;> simp only [commandSizes, reduceCtorEq, Option.some.injEq, Prod.mk.injEq] at hi <;> obtain ⟨rfl, rfl⟩ := hi
  · exact .inl ⟨_, planEncMsg_pass h, by simp⟩
  · exact .inl ⟨_, planDecMsg_pass h, by simp [decodeMessage, length_unpackBytes]⟩
  · cases hr : packRefuses s with
    | true => exact .inr ⟨rfl, rfl, by simp [planOf, planPack_pass h, hr]⟩
    | false => exact .inl ⟨_, by simp only [planOf, planPack_pass h, hr]; rfl, by simp [length_packSymbols, packContainers]⟩
  · exact .inl ⟨_, planUnpack_pass h, by simp [length_unpackBytes]⟩

/-- A command that does not reach buffer memory writes nothing. -/
theorem planOf_register {i : Instr} {s : State} (hi : commandSizes i s.len.toNat = none) :
    (∃ r, planOf i s = .complete r 0 []) ∨ ∃ c, planOf i s = .raise c := by
  cases i <;> simp only [commandSizes, reduceCtorEq] at hi
  · exact .inl ⟨_, rfl⟩
  · simp only [planOf, planEncSym]
    split
    · exact .inr ⟨_, rfl⟩
    · exact .inl ⟨_, rfl⟩
  · simp only [planOf, planDecSym]
    split
    · exact .inr ⟨_, rfl⟩
    · exact .inl ⟨_, rfl⟩
  · simp only [planOf, planEncLen]
    split
    · exact .inl ⟨_, rfl⟩
    · exact .inr ⟨_, rfl⟩

/-- Every end of a command: an error, or a completion whose output is empty or is the n bytes of its output range. -/
theorem planOf_cases (i : Instr) (s : State) :
    (∃ c, planOf i s = .raise c) ∨ (∃ r, planOf i s = .complete r 0 []) ∨
      ∃ m n out, commandSizes i s.len.toNat = some (m, n) ∧ s.RangesPass m n ∧ out.length = n ∧
        planOf i s = .complete (some (toReg n)) s.dst.toNat out := by
  cases hi : commandSizes i s.len.toNat with
  | none => exact (planOf_register hi).elim (fun h => .inr (.inl h)) .inl
  | some p =>
    obtain ⟨m, n⟩ := p
    by_cases h : s.RangesPass m n
    · rcases planOf_pass hi h with ⟨out, ho, hl⟩ | ⟨_, _, hp⟩
      · exact .inr (.inr ⟨m, n, out, rfl, h, hl, ho⟩)
      · exact .inl ⟨_, hp⟩
    · exact .inl ⟨_, planOf_bad hi h⟩

/-- An output range that passes its check is empty or lies inside buffer memory. -/
theorem State.RangesPass.dst_inside {s : State} {m n : Nat} (h : s.RangesPass m n) : n = 0 ∨ s.dst.toNat + n ≤ s.memSize := by
  simpa [rangeOk] using h.dst_ok

/-- A byte of the input range is no byte of the output range. -/
theorem State.RangesPass.apart {s : State} {m n : Nat} (h : s.RangesPass m n) {a : Nat}
    (hi : s.src.toNat ≤ a ∧ a < s.src.toNat + m) : ¬(s.dst.toNat ≤ a ∧ a < s.dst.toNat + n) := by
  intro ho
  have := h.disjoint
  simp [overlap] at this
  omega

/-- Every end of a command gives BUSY = 0, DONE = 1, `in_flight` = 0. -/
theorem State.finish_ended (e : CmdEnd) (s : State) :
    (s.finish e).busy = false ∧ (s.finish e).done = true ∧ (s.finish e).inFlight = false := by
  cases e <;> exact ⟨rfl, rfl, rfl⟩

end Sys2Proof.Machine
end

