-- ==== Sys2Proof/Laws/Turn.lean ====
section
/-! SUPPORT. Everything a step that goes on can do, said once: one case for each event and each outcome of the core's turn. Proofs
about all steps go by cases on `StepCase`. -/

namespace Sys2Proof.Machine

/-- The state with its oldest event used up. -/
def State.popped (s : State) : State := { s with inputs := s.inputs.tail }

/-- What led from s to t in one step. -/
inductive StepCase (s t : State) : Prop where
  /-- The core's turn with nothing in flight, or held in reset. -/
  | waits (hc : s.CoreNext) (hi : s.rst = true ∨ s.inFlight = false) (ht : t = s.popped)
  /-- The core's turn with a command in flight. -/
  | runs (hc : s.CoreNext) (hr : s.rst = false) (hf : s.inFlight = true) (i : Instr) (hd : decodeCmd s.curCmd = .ok i)
      (ht : t = s.popped.finish (planOf i s.popped))
  /-- The core's turn with an illegal word in flight. -/
  | rejects (hc : s.CoreNext) (hr : s.rst = false) (hf : s.inFlight = true) (r : DecodeReject)
      (hd : decodeCmd s.curCmd = .error r) (ht : t = s.popped.raise .illegalCommand)
  | regRead (n : Nat) (o : BitVec 6) (rest : List Event) (he : s.inputs = .regRead n o :: rest)
      (hr : (regAt n o).isSome = true) (v : Word) (k : Nat)
      (ht : t = { s.popped with lastRead := some (.reg o v), draws := k })
  | regWriteHeld (n : Nat) (o : BitVec 6) (w : Word) (rest : List Event) (he : s.inputs = .regWrite n o w :: rest)
      (hs : s.rst = true) (ht : t = s.popped)
  | regWrite (n : Nat) (o : BitVec 6) (w : Word) (rest : List Event) (he : s.inputs = .regWrite n o w :: rest)
      (hs : s.rst = false) (r : Reg) (hr : regAt n o = some r) (ht : t = s.popped.writeReg r w)
  | memRead (a : Word) (rest : List Event) (he : s.inputs = .memRead a :: rest) (ha : a.toNat < s.memSize) (v : Byte) (k : Nat)
      (ht : t = { s.popped with lastRead := some (.byte a v), draws := k })
  | memWriteApart (a : Word) (v : Byte) (rest : List Event) (he : s.inputs = .memWrite a v :: rest) (ha : a.toNat < s.memSize)
      (hf : s.popped.flightRanges = none) (ht : t = { s.popped with mem := s.mem.write a.toNat v })
  | memWriteInFlight (a : Word) (v : Byte) (rest : List Event) (he : s.inputs = .memWrite a v :: rest)
      (ha : a.toNat < s.memSize) (r : Ranges) (hf : s.popped.flightRanges = some r)
      (ht : t = { s.popped with
        mem := s.mem.write a.toNat v,
        inputTampered := s.inputTampered || r.inputHas a.toNat,
        hostWrote := if r.outputHas a.toNat then a.toNat :: s.hostWrote else s.hostWrote })
  | rstAssert (rest : List Event) (he : s.inputs = .rstAssert :: rest)
      (ht : t = { s.popped.abandon.resetCore with rst := true })
  | rstDeassert (rest : List Event) (he : s.inputs = .rstDeassert :: rest) (hs : s.rst = true)
      (ht : t = { s.popped.resetCore with rst := false })
  | rstNoEdge (rest : List Event) (he : s.inputs = .rstDeassert :: rest) (hs : s.rst = false) (ht : t = s.popped)

theorem coreTurn_case {s t : State} (hc : s.CoreNext) (h : coreTurn s.popped = .next t) : StepCase s t := by
  rcases coreTurn_cases s.popped with ⟨hi, h'⟩ | ⟨hr, hf, i, hd, h'⟩ | ⟨hr, hf, r, hd, h'⟩ <;> rw [h'] at h <;> injection h with h
  · exact .waits hc hi h.symm
  · exact .runs hc hr hf i hd h.symm
  · exact .rejects hc hr hf r hd h.symm

/-- A step that answers a next state is one of the cases. -/
theorem step_next_case {s t : State} (h : step s = .next t) : StepCase s t := by
  cases hin : s.inputs with
  | nil =>
    have hp : s.popped = s := by simp only [State.popped, hin, List.tail_nil]; rw [← hin]
    rw [step_nil hin, ← hp] at h
    exact coreTurn_case (.inl hin) h
  | cons e rest =>
    have hp : ({ s with inputs := rest } : State) = s.popped := by simp [State.popped, hin]
    rw [step_cons hin, hp] at h
    cases e with
    | core => exact coreTurn_case (.inr (by simp [hin])) h
    | regRead n o =>
      obtain ⟨hr, v, k, ht⟩ := hostReadReg_next h
      exact .regRead n o rest hin hr v k ht
    | regWrite n o w =>
      obtain ⟨r, hr, ⟨hs, ht⟩ | ⟨hs, ht⟩⟩ := hostWriteReg_next h
      · exact .regWriteHeld n o w rest hin hs ht
      · exact .regWrite n o w rest hin hs r hr ht
    | memRead a =>
      obtain ⟨ha, v, k, ht⟩ := hostReadByte_next h
      exact .memRead a rest hin ha v k ht
    | memWrite a v =>
      obtain ⟨ha, ⟨hf, ht⟩ | ⟨r, hf, ht⟩⟩ := hostWriteByte_next h
      · exact .memWriteApart a v rest hin ha hf ht
      · exact .memWriteInFlight a v rest hin ha r hf ht
    | rstAssert =>
      injection h with h
      exact .rstAssert rest hin h.symm
    | rstDeassert =>
      change (if s.popped.rst then _ else _) = _ at h
      split_ifs at h with hs <;> injection h with h
      · exact .rstDeassert rest hin hs h.symm
      · exact .rstNoEdge rest hin (Bool.eq_false_iff.2 hs) h.symm

/-- Abandoning a command changes buffer memory and the number of draws alone. -/
theorem State.abandon_eq (s : State) : ∃ m k, s.abandon = { s with mem := m, draws := k } := by
  unfold State.abandon
  split
  · exact ⟨s.mem, s.draws, rfl⟩
  · exact ⟨_, _, rfl⟩

end Sys2Proof.Machine
end

