-- ==== Sys2Proof/Tests/Slice0.lean ====
section
/-! SUPPORT. The model's own tests, on expected values of 95_test_vectors.md and of the numbered rules, and the witnesses: for every
statement with hypotheses, states and operands that meet them all together. -/

namespace Sys2Proof.Tests

open Sys2Proof Sys2Proof.Machine

/-! ### Small states -/

/-- A view of the next state, if there is one (after a command `cur_cmd` is a free value, so no whole state is compared). -/
def after {α : Type} (o : Host.Outcome State Fault Refusal) (f : State → α) : Option α :=
  match o with
  | .next t => some (f t)
  | .fault _ => none
  | .refused _ => none

/-- An idle platform with MEM_SIZE = 0x1000, as 95_test_vectors.md assumes. -/
def idle : State := { State.reset with memSize := 0x1000 }

/-- The word w in flight, with these operands and events. -/
def running (w arg src dst len : Word) (events : List Event) : State :=
  { idle with busy := true, inFlight := true, curCmd := w, arg := arg, src := src, dst := dst, len := len, inputs := events }

/-- The same with bytes in memory from `base` on. -/
def runningOn (w src dst len : Word) (base : Nat) (bytes : List Byte) (events : List Event) : State :=
  { running w 0 src dst len events with mem := Memory.writeBytes [] base bytes }

/-- "Hi!" at 0x100, ENC_MSG to 0x200 in flight. -/
def hiRunning (events : List Event) : State := runningOn 3 0x100 0x200 3 0x100 [0x48, 0x69, 0x21] events

/-- The containers [198, 5C9] at 0x100, PACK to 0x200 in flight. -/
def packRunning (events : List Event) : State := runningOn 5 0x100 0x200 2 0x100 [0x98, 0x01, 0xC9, 0x05] events

/-- A core that a fault has shut. -/
def shut (events : List Event) : State := { idle with done := true, fatal := true, err := 2, inputs := events }

/-- A core held in reset. -/
def held (events : List Event) : State := { idle with rst := true, inputs := events }

/-- STATUS, RESULT and some bytes of memory. -/
def endView (base n : Nat) (t : State) : Word × Word × List Byte := (t.statusWord, t.result, t.mem.readBytes base n)

/-! ### Decoding, from 30_encoding.md R81 and R82 -/

theorem test_decode_nop : decodeCmd 0b00000000000000000000000000000000 = .ok .nop := by decide
theorem test_decode_encSym : decodeCmd 0b00000000000000000000000000000001 = .ok .encSym := by decide
theorem test_decode_decSym : decodeCmd 0b00000000000000000000000000000010 = .ok .decSym := by decide
theorem test_decode_encMsg : decodeCmd 0b00000000000000000000000000000011 = .ok .encMsg := by decide
theorem test_decode_decMsg : decodeCmd 0b00000000000000000000000000000100 = .ok .decMsg := by decide
theorem test_decode_pack : decodeCmd 0b00000000000000000000000000000101 = .ok .pack := by decide
theorem test_decode_unpack : decodeCmd 0b00000000000000000000000000000110 = .ok .unpack := by decide
theorem test_decode_encLen : decodeCmd 0b00000000000000000000000000000111 = .ok .encLen := by decide

/-- The illegal words of 95_test_vectors.md section 12.1. -/
theorem test_decode_illegal :
    [0x00000008, 0x0000000F, 0x00000010, 0x00000015, 0x80000001, 0xFFFFFFFF].all
      (fun w : Word => (decodeCmd w).toOption.isNone) = true := by decide

theorem test_decodeTableWord : decodeTableWord 32 4 = some .decMsg ∧ decodeTableWord 8 5 = some .pack ∧
    decodeTableWord 32 0x15 = none ∧ decodeTableWord 64 (2 ^ 32) = none := by decide

/-! ### Well-formedness: an ill-formed word for each check -/

theorem test_reservedZero_refuses : CmdWord.reservedZero 0x00000010 = false ∧ CmdWord.reservedZero 0x80000001 = false := by decide
theorem test_opInRange_refuses : CmdWord.opInRange 0x00000008 = false ∧ CmdWord.opInRange 0x0000000F = false := by decide
theorem test_legal_refuses : CmdWord.legal 0x00000008 = false ∧ CmdWord.legal 0x00000015 = false := by decide
theorem test_legal_accepts : CmdWord.legal 0x00000000 = true ∧ CmdWord.legal 0x00000007 = true := by decide
theorem test_wellFormed : Instr.wellFormed .encLen = true := by decide

/-! ### The codec, from 95_test_vectors.md sections 2.2 and 4 -/

theorem test_encode12 : encode12 0x01 = 0x111 ∧ encode12 0x80 = 0xE00 ∧ encode12 0x48 = 0x198 ∧ encode12 0xA5 = 0xE45 ∧
    encode12 0xFF = 0xEEF ∧ encode12 0x7F = 0x0EF ∧ encode12 0xB6 = 0xE66 := by decide

theorem test_decode12 : decode12 0xFFF = 0xFE ∧ decode12 0x801 = 0x01 ∧ decode12 0x003 = 0x13 ∧ decode12 0x00C = 0x8C ∧
    decode12 0xCAA = 0xDA ∧ decode12 0x2AB = 0xDB ∧ decode12 0x4AA = 0x5A ∧ decode12 0x0BA = 0x5A := by decide

theorem test_syndrome : syndrome 0xFFF = 12 ∧ syndrome 0x7FF = 13 ∧ syndrome 0x2AB = 15 ∧ syndrome 0x0EA = 6 := by decide

theorem test_pack_tail : packSymbols [0xFFF, 0x000, 0x5A5] = [0xFF, 0x00, 0x0F, 0xA5, 0x05] := by decide
theorem test_unpack_ignores_nibble : unpackBytes [0x98, 0xC9, 0x51, 0x51, 0xF4] 3 = [0x198, 0x5C9, 0x451] := by decide

/-! ### One step of each command, from 95_test_vectors.md sections 3 to 11 -/

theorem test_nop : after (step { running 0 0 0 0 0 [] with irqEn := true, result := 7 }) (fun t => (t.statusWord, t.result, t.irq)) =
    some (0x00000002, 7, true) := by decide

theorem test_encSym : after (exec .encSym (running 1 0x5A 0 0 0 [])) (endView 0 0) = some (0x00000002, 0x000000AA, []) := by decide
theorem test_encSym_refuses :
    after (exec .encSym { running 1 0x100 0 0 0 [] with result := 9 }) (endView 0 0) = some (0x00000012, 9, []) := by decide

theorem test_decSym : after (exec .decSym (running 2 0x2AA 0 0 0 [])) (endView 0 0) = some (0x00000002, 0x0000005A, []) := by decide
theorem test_decSym_refuses :
    after (exec .decSym { running 2 0x1000 0 0 0 [] with result := 9 }) (endView 0 0) = some (0x00000012, 9, []) := by decide

theorem test_encMsg : after (exec .encMsg (hiRunning [])) (endView 0x200 6) =
    some (0x00000002, 5, [0x98, 0xC9, 0x51, 0x51, 0x04, 0x00]) := by decide
theorem test_encMsg_empty_anywhere : after (exec .encMsg (running 3 0 0xFFFFFFFF 0xFFFFFFFF 0 [])) (endView 0 0) =
    some (0x00000002, 0, []) := by decide

theorem test_decMsg_corrects :
    after (exec .decMsg (runningOn 4 0x100 0x200 3 0x100 [0x99, 0xC8, 0x51, 0xD1, 0x04] [])) (endView 0x200 3) =
      some (0x00000002, 3, [0x48, 0x69, 0x21]) := by decide
theorem test_decMsg_overlap : after (exec .decMsg (running 4 0 0x100 0x104 3 [])) (endView 0 0) = some (0x00000042, 0, []) := by
  decide

theorem test_pack : after (exec .pack (packRunning [])) (endView 0x200 3) = some (0x00000002, 3, [0x98, 0xC9, 0x51]) := by decide
theorem test_pack_refuses_wide :
    after (exec .pack (runningOn 5 0x100 0x200 2 0x100 [0x98, 0x01, 0x00, 0x10] [])) (endView 0x200 3) =
      some (0x00000012, 0, [0x00, 0x00, 0x00]) := by decide

theorem test_unpack :
    after (exec .unpack (runningOn 6 0x100 0x200 3 0x100 [0x98, 0xC9, 0x51, 0x51, 0xF4] [])) (endView 0x200 6) =
      some (0x00000002, 6, [0x98, 0x01, 0xC9, 0x05, 0x51, 0x04]) := by decide
theorem test_unpack_outside :
    after (exec .unpack (running 6 0 0x100 0xFFB 3 [])) (endView 0 0) = some (0x00000042, 0, []) := by decide

theorem test_encLen : after (exec .encLen (running 7 0 0 0 0xAAAAAAAA [])) (endView 0 0) =
    some (0x00000002, 0xFFFFFFFF, []) := by decide
theorem test_encLen_refuses : after (exec .encLen (running 7 0 0 0 0xAAAAAAAB [])) (endView 0 0) =
    some (0x00000042, 0, []) := by decide

/-! ### The window, completion and reset -/

theorem test_illegal_word : after (step (running 0x15 0 0 0 0 [])) (endView 0 0) = some (0x00000032, 0, []) := by decide

theorem test_read_id : after (step { idle with inputs := [Reg.rd .id] }) (·.lastRead) = some (some (.reg 0x00 0x01010C08)) := by decide

theorem test_status_w1c : after (step { idle with done := true, err := 4, inputs := [Reg.wr .status 0x00000002] }) (·.statusWord) =
    some 0x00000040 := by decide

theorem test_locked_operand : after (step (running 1 7 0 0 0 [Reg.wr .arg 0x12345678])) (·.arg) = some 7 := by decide

theorem test_lost_command : after (step (running 1 7 0 0 0 [hostCommand .decSym])) (·.curCmd) = some 1 := by decide

theorem test_accept_clears : after (step { idle with done := true, err := 4, inputs := [hostCommand .nop] })
    (fun t => (t.statusWord, t.inFlight)) = some (0x00000001, true) := by decide

theorem test_window_byte_access : step { idle with inputs := [.regRead 1 0x08] } = .refused (.windowAccess 1 0x08) := rfl

theorem test_reset_clears : after (step { shut [.rstAssert] with irqEn := true }) (fun t => (t.statusWord, t.ctrlWord, t.rst)) =
    some (0x00000000, 0x00000000, true) := by decide

theorem test_shut_core : after (step (shut [hostCommand .nop])) (·.statusWord) = some 0x00000026 := by decide

theorem test_inconsistency_status : (State.raiseInconsistent 0x200 3 (hiRunning [])).statusWord = 0x00000026 := by decide

/-- A word placed after reset runs at the very next step. -/
theorem test_withFetchWord : after (step (State.reset.withFetchWord 32 7)) (endView 0 0) = some (0x00000002, 0, []) := by decide

/-- A host byte write to an idle core stores the byte and nothing else (20_memory.md R69). -/
theorem test_memWrite_idle :
    step { idle with arg := 7, inputs := [.memWrite 0xFFF 0x5A] } = .next { idle with arg := 7, mem := [(0xFFF, 0x5A)] } := by rfl

/-! ### Witnesses

The invariant and the range checks of the small states come first. -/

theorem idle_inv (events : List Event) : ({ idle with inputs := events } : State).Inv :=
  ⟨rfl, rfl, by simp [idle], by simp [idle], rfl, nofun, nofun, by simp [idle, State.reset], fun _ => ⟨rfl, rfl⟩, nofun⟩

theorem running_inv (w arg src dst len : Word) (events : List Event) : (running w arg src dst len events).Inv :=
  ⟨rfl, rfl, by simp [running, idle], by simp [running, idle], rfl, fun _ => ⟨rfl, rfl, rfl⟩, nofun,
    by simp [running, idle, State.reset], fun _ => ⟨rfl, rfl⟩, nofun⟩

theorem hiRunning_inv (events : List Event) : (hiRunning events).Inv := by
  have h : (hiRunning []).mem.wf = true ∧ (hiRunning []).mem.below 0x1000 = true := by decide
  exact ⟨h.1, h.2, by simp [hiRunning, runningOn, running, idle], by simp [hiRunning, runningOn, running, idle], rfl,
    fun _ => ⟨rfl, rfl, rfl⟩, nofun, by simp [hiRunning, runningOn, running, idle, State.reset], fun _ => ⟨rfl, rfl⟩, nofun⟩

theorem shut_inv (events : List Event) : (shut events).Inv :=
  ⟨rfl, rfl, by simp [shut, idle], by simp [shut, idle], rfl, nofun, fun _ => rfl, by simp [shut], fun _ => ⟨rfl, rfl⟩, nofun⟩

theorem held_inv (events : List Event) : (held events).Inv :=
  ⟨rfl, rfl, by simp [held, idle], by simp [held, idle], rfl, nofun, nofun, by simp [held, idle, State.reset],
    fun _ => ⟨rfl, rfl⟩, fun _ => ⟨rfl, rfl, rfl, rfl, rfl, rfl, rfl, rfl, rfl, rfl, rfl⟩⟩

theorem hiRunning_untouched (events : List Event) : (hiRunning events).Untouched := ⟨rfl, rfl⟩

theorem packRunning_untouched (events : List Event) : (packRunning events).Untouched := ⟨rfl, rfl⟩

theorem hiRunning_ranges : (hiRunning []).RangesPass 3 5 :=
  ⟨by decide, by decide, by decide, by decide, by decide⟩

/-- The words of R82 and their neighbours: legal up to 7, reserved OP from 8 to 15, reserved bits from 16 on. -/
theorem witness_LegalWordsAreTheEight : decodeCmd 7 = .ok .encLen ∧ decodeCmd 8 = .error .reservedOp ∧
    decodeCmd 15 = .error .reservedOp ∧ decodeCmd 16 = .error .reservedBits := by decide

theorem witness_StepRunsDecodedCommand :
    ((hiRunning []).rst = false ∧ (hiRunning []).inFlight = true ∧ decodeCmd (hiRunning []).curCmd = .ok .encMsg ∧
      (hiRunning []).inputs = []) ∧
    (hiRunning [.core, .rstAssert]).inputs = .core :: [.rstAssert] ∧
    (idle.inFlight = false ∧ idle.inputs = []) ∧ ({ idle with inputs := [.core] } : State).inFlight = false ∧
    ∀ e : Event, ({ idle with inputs := [e] } : State).inputs = e :: [] :=
  ⟨by decide, rfl, by decide, rfl, fun _ => rfl⟩

theorem witness_IllegalWordEndsAtCoreTurn :
    ((running 8 0 0 0 0 []).rst = false ∧ (running 8 0 0 0 0 []).inFlight = true ∧ 8 ≤ (running 8 0 0 0 0 []).curCmd.toNat) ∧
    (running 8 0 0 0 0 []).inputs = [] ∧ (running 0xFFFFFFFF 0 0 0 0 [.core]).inputs = .core :: [] ∧
    8 ≤ (running 0xFFFFFFFF 0 0 0 0 [.core]).curCmd.toNat ∧ (shut []).fatal = true ∧ (running 1 0 0 0 0 []).busy = true := by
  decide

theorem witness_CodewordsDecodeBack : encode12 0 = encode12 0 ∧ syndrome 0xEEF = 0 := by decide

/-- A flip of bit 11; the positions 1 and 2, whose syndrome 3 is a position; 1 and 12, whose syndrome is 13; ARG at its limit. -/
theorem witness_SingleErrorsCorrected : 11 < 12 ∧ (1 ^^^ 2 ≤ 12 ∧ 1 ≠ 2) ∧ (13 ≤ 1 ^^^ 12 ∧ 12 ≤ 12) ∧
    (running 2 0xFFF 0 0 0 []).arg.toNat < 2 ^ 12 := by decide

theorem witness_NopCompletes : ({ idle with irqEn := true } : State).fatal = false ∧ ({ idle with irqEn := true } : State).irqEn = true := by
  decide

theorem witness_EncSym : (running 1 0xFF 0 0 0 []).arg.toNat < 2 ^ 8 ∧ 2 ^ 8 ≤ (running 1 0x100 0 0 0 []).arg.toNat := by decide

theorem witness_DecSym : (running 2 0xFFF 0 0 0 []).arg.toNat < 2 ^ 12 ∧ 2 ^ 12 ≤ (running 2 0x1000 0 0 0 []).arg.toNat := by decide

theorem witness_EncLen : (running 7 0 0 0 0xAAAAAAAA []).len.toNat ≤ 0xAAAAAAAA ∧
    0xAAAAAAAA < (running 7 0 0 0 0xAAAAAAAB []).len.toNat := by decide

/-- Every command of the frame ends in a next state; ENC_SYM of 0x100 ends with an error. -/
theorem witness_RegisterCommandFrame :
    (∀ i ∈ [Instr.nop, .encSym, .decSym, .encLen], ∃ t, exec i idle = .next t) ∧
    ∃ t, exec .encSym (running 1 0x100 0 0 0 []) = .next t ∧ t.err ≠ 0 :=
  ⟨fun i _ => ⟨_, exec_eq_finish i idle⟩, _, rfl, by decide⟩

theorem witness_EncLenStrictlyIncreasing : 0 < 1 ∧ encLen 0xAAAAAAAA = encLen 0xAAAAAAAA := by decide

theorem witness_CountLimit : 0xAAAAAAAA < (running 3 0 0 0 0xAAAAAAAB []).len.toNat ∧
    0x7FFFFFFF < (running 5 0 0 0 0x80000000 []).len.toNat ∧ (running 7 0 0 0 0xAAAAAAAA []).len.toNat ≤ 0xAAAAAAAA := by decide

theorem witness_PackUnpackInverse : [0x98, 0xC9, 0x51, 0x51, 0x04].length = encLen 3 ∧ 3 % 2 = 1 ∧
    ([0x98, 0xC9, 0x51, 0x51, 0x04] : List Byte).getLast? = some 0x04 ∧ hiNibble 0x04 = 0#4 := by decide

theorem witness_TailNibbleIgnored : 3 % 2 = 1 ∧ ([0x98, 0xC9, 0x51, 0x51, 0x04] : List Byte).length = encLen 3 ∧
    ([0x98, 0xC9, 0x51, 0x51, 0x04] : List Byte)[encLen 3 - 1]? = some 0x04 ∧ loNibble 0xF4 = loNibble 0x04 := by decide

theorem witness_PackedBitMap : ([0x198, 0x5C9, 0x451] : List Symbol)[2 * 0]? = some 0x198 ∧
    ([0x198, 0x5C9, 0x451] : List Symbol)[2 * 0 + 1]? = some 0x5C9 ∧ ([0x198, 0x5C9, 0x451] : List Symbol).length = 2 * 1 + 1 ∧
    ([0x198, 0x5C9, 0x451] : List Symbol)[2 * 1]? = some 0x451 := by decide

/-- "Hi!" with one bit flipped in each symbol (95_test_vectors.md section 11); the first and the last bit of the encoded bytes. -/
theorem witness_MessageRoundTripUnderFlips :
    ([0x99, 0xC8, 0x51, 0xD1, 0x04] : List Byte).length = encLen [0x48, 0x69, 0x21].length ∧
    AtMostOneFlipEach (unpackBytes (encodeMessage [0x48, 0x69, 0x21]) 3) (unpackBytes [0x99, 0xC8, 0x51, 0xD1, 0x04] 3) ∧
    (0 < encLen 3 ∧ 0 < 8) ∧ (4 < encLen 3 ∧ 7 < 8 ∧ 3 % 2 = 1 ∧ 4 = encLen 3 - 1) := by
  refine ⟨by decide, ?_, by decide, by decide⟩
  show List.Forall₂ AtMostOneFlip [0x198, 0x5C9, 0x451] [0x199, 0x5C8, 0x4D1]
  exact .cons (.inr ⟨0, by decide, by decide⟩) (.cons (.inr ⟨0, by decide, by decide⟩)
    (.cons (.inr ⟨7, by decide, by decide⟩) .nil))

/-- The output range ends where the input range starts, and the input range ends at MEM_SIZE. -/
theorem witness_EncMsg : (running 3 0 0xFFD 0xFF8 3 []).mem.wf = true ∧ (running 3 0 0xFFD 0xFF8 3 []).Untouched ∧
    (running 3 0 0xFFD 0xFF8 3 []).RangesPass 3 (encLen 3) :=
  ⟨rfl, ⟨rfl, rfl⟩, by decide, by decide, by decide, by decide, by decide⟩

theorem witness_DecMsg : (running 4 0 0xFFB 0xFF8 3 []).mem.wf = true ∧ (running 4 0 0xFFB 0xFF8 3 []).Untouched ∧
    (running 4 0 0xFFB 0xFF8 3 []).RangesPass (encLen 3) 3 :=
  ⟨rfl, ⟨rfl, rfl⟩, by decide, by decide, by decide, by decide, by decide⟩

theorem witness_Pack : (running 5 0 0xFFC 0xFF9 2 []).mem.wf = true ∧ (running 5 0 0xFFC 0xFF9 2 []).Untouched ∧
    (running 5 0 0xFFC 0xFF9 2 []).RangesPass (2 * 2) (encLen 2) :=
  ⟨rfl, ⟨rfl, rfl⟩, by decide, by decide, by decide, by decide, by decide⟩

/-- Containers of 0x0FFF, which are packed, and one of 0x1000, which is refused (with `witness_Pack`). -/
theorem witness_Pack_containers :
    (∀ c ∈ (runningOn 5 0x100 0x200 2 0x100 [0xFF, 0x0F] []).mem.readContainers 0x100 2, c.toNat < 2 ^ 12) ∧
    (∃ c ∈ (runningOn 5 0x100 0x200 2 0x100 [0x00, 0x10] []).mem.readContainers 0x100 2, 2 ^ 12 ≤ c.toNat) ∧
    (runningOn 5 0x100 0x200 2 0x100 [0x00, 0x10] []).RangesPass (2 * 2) (encLen 2) := by
  have h : (runningOn 5 0x100 0x200 2 0x100 [0xFF, 0x0F] []).mem.readContainers 0x100 2 = [0x0FFF, 0x0000] := by decide
  refine ⟨?_, ⟨0x1000, by decide, by decide⟩, by decide, by decide, by decide, by decide, by decide⟩
  rw [h]
  simp

theorem witness_Unpack : (running 6 0 0xFFD 0xFF9 2 []).mem.wf = true ∧ (running 6 0 0xFFD 0xFF9 2 []).Untouched ∧
    (running 6 0 0xFFD 0xFF9 2 []).RangesPass (encLen 2) (2 * 2) :=
  ⟨rfl, ⟨rfl, rfl⟩, by decide, by decide, by decide, by decide, by decide⟩

/-- The other clauses about the memory commands: an empty message anywhere, a length over the limit, an end that is a next state, and
messages of even and of odd length. -/
theorem witness_memory_command_clauses :
    ((running 3 0 0xFFFFFFFF 0xFFFFFFFF 0 []).len = 0 ∧ (running 5 0 0xFFFFFFFF 0xFFFFFFFF 0 []).Untouched) ∧
    0xAAAAAAAA < (running 3 0 0 0 0xAAAAAAAB []).len.toNat ∧ ¬(running 3 0 0xFFE 0 3 []).RangesPass 3 (encLen 3) ∧
    ¬(running 4 0 0 0xFFE 3 []).RangesPass (encLen 3) 3 ∧ ¬(running 5 0 0x100 0x103 2 []).RangesPass (2 * 2) (encLen 2) ∧
    ¬(running 6 0 0x102 0x100 2 []).RangesPass (encLen 2) (2 * 2) ∧
    (∀ i ∈ [Instr.encMsg, .decMsg, .unpack], ∃ t, exec i (hiRunning []) = .next t) ∧
    ([] : List Byte).length % 2 = 0 ∧ ([0x5A] : List Byte).length % 2 = 1 :=
  ⟨⟨rfl, rfl, rfl⟩, by decide, fun h => absurd h.src_ok (by decide), fun h => absurd h.dst_ok (by decide),
    fun h => absurd h.disjoint (by decide), fun h => absurd h.disjoint (by decide), fun i _ => ⟨_, exec_eq_finish i _⟩,
    by decide, by decide⟩

/-- One byte too far at either end, an overlap of one byte, and a length that does not fit. -/
theorem witness_MemoryCommandsRefuseBadRanges :
    (commandSizes .encMsg 3 = some (3, 5) ∧ commandSizes .decMsg 3 = some (5, 3) ∧ commandSizes .pack 2 = some (4, 3) ∧
      commandSizes .unpack 2 = some (3, 4)) ∧
    ¬(running 3 0 0xFFE 0 3 []).RangesPass 3 5 ∧ ¬(running 4 0 0 0xFFE 3 []).RangesPass 5 3 ∧
    ¬(running 5 0 0x100 0x103 2 []).RangesPass 4 3 ∧ ∀ n, ¬(running 6 0 0 0 0x80000000 []).RangesPass n (2 ^ 32) :=
  ⟨by decide, fun h => absurd h.src_ok (by decide), fun h => absurd h.dst_ok (by decide), fun h => absurd h.disjoint (by decide),
    fun _ h => absurd ((fits_iff _).1 h.fits_out) (by decide)⟩

theorem witness_MemoryCommandFrame :
    (∃ t, commandSizes .encMsg (hiRunning []).len.toNat = some (3, 5) ∧ exec .encMsg (hiRunning []) = .next t) ∧
    ∃ t, commandSizes .decMsg (running 4 0 0x100 0x104 3 []).len.toNat = some (5, 3) ∧
      exec .decMsg (running 4 0 0x100 0x104 3 []) = .next t ∧ t.err ≠ 0 :=
  ⟨⟨_, by decide, rfl⟩, _, by decide, rfl, by decide⟩

/-- Each of the three ways to InvalidInput, and a command that completes. -/
theorem witness_InvalidInputExactly :
    (∃ t, (running 1 0x100 0 0 0 []).Untouched ∧ exec .encSym (running 1 0x100 0 0 0 []) = .next t ∧ t.err = 1) ∧
    (∃ t, (running 2 0x1000 0 0 0 []).Untouched ∧ exec .decSym (running 2 0x1000 0 0 0 []) = .next t ∧ t.err = 1) ∧
    (∃ t, exec .pack (runningOn 5 0x100 0x200 1 0x100 [0x00, 0xF0] []) = .next t ∧ t.err = 1) ∧
    ∃ t, (hiRunning []).Untouched ∧ exec .encMsg (hiRunning []) = .next t :=
  ⟨⟨_, ⟨rfl, rfl⟩, rfl, rfl⟩, ⟨_, ⟨rfl, rfl⟩, rfl, rfl⟩, ⟨_, rfl, by decide⟩, _, ⟨rfl, rfl⟩, rfl⟩

theorem witness_ErrorsArePrecise : ∃ t, exec .encLen (running 7 0 0 0 0xFFFFFFFF []) = .next t ∧ t.err ≠ 0 := ⟨_, rfl, by decide⟩

theorem witness_LengthCheckNeverFails : ∃ t, exec .encMsg (hiRunning []) = .next t ∧ step (hiRunning []) = .next t ∧
    (hiRunning []).fatal = false := ⟨_, rfl, rfl, rfl⟩

/-- RESULT changes when ENC_SYM completes, and when reset clears it. -/
theorem witness_CompletionActions :
    (∃ t, (running 1 0x5A 0 0 0 []).Inv ∧ step (running 1 0x5A 0 0 0 []) = .next t ∧ t.result ≠ (running 1 0x5A 0 0 0 []).result) ∧
    ∃ s t : State, s.Inv ∧ step s = .next t ∧ t.result ≠ s.result ∧ s.inputs = .rstAssert :: [] :=
  ⟨⟨_, running_inv _ _ _ _ _ _, rfl, by decide⟩, { idle with result := 9, inputs := [.rstAssert] }, _,
    ⟨rfl, rfl, by decide, by decide, rfl, nofun, nofun, by decide, fun _ => ⟨rfl, rfl⟩, nofun⟩, rfl, by decide, rfl⟩

theorem witness_AcceptanceRule : (shut []).rst = false ∧ (shut []).fatal = true ∧ (hiRunning []).rst = false ∧
    (hiRunning []).busy = true ∧ idle.rst = false ∧ idle.fatal = false ∧ idle.busy = false ∧ idle.inputs = [] ∧
    decodeCmd 7 = .ok .encLen ∧ decodeCmd 8 = .error .reservedOp := by decide

/-- The first and the last reserved offset; a byte access; an access that is not aligned. -/
theorem witness_HostWriteTable_WindowReads : idle.rst = false ∧ 0x24 ≤ (0x24 : BitVec 6).toNat ∧ (0x24 : BitVec 6).toNat % 4 = 0 ∧
    0x24 ≤ (0x3C : BitVec 6).toNat ∧ (0x3C : BitVec 6).toNat % 4 = 0 ∧ (0x20 : BitVec 6).toNat % 4 = 0 ∧ 1 ≠ 4 ∧
    (0x22 : BitVec 6).toNat % 4 ≠ 0 := by decide

/-- The three host writes that lower `irq`. -/
theorem witness_InterruptFollowsCompletion :
    (∃ t, exec .nop { idle with irqEn := true } = .next t) ∧ idle.rst = false ∧
    (∃ t, hostWriteReg 4 0x08 2 idle = .next t ∧ (2 : Word).getLsbD 1 = true) ∧
    (∃ t, hostWriteReg 4 0x04 0xFFFFFFFE idle = .next t ∧ (0xFFFFFFFE : Word).getLsbD 0 = false) ∧
    ∃ t, hostWriteReg 4 0x0C 0 idle = .next t ∧ idle.fatal = false ∧ idle.busy = false :=
  ⟨⟨_, rfl⟩, rfl, ⟨_, rfl, by decide⟩, ⟨_, rfl, by decide⟩, _, rfl, rfl, rfl⟩

/-- An accepted command; one that completes; one that reset ends; a write of CMD, of ARG and a read that leave a command in flight. -/
theorem witness_Busy :
    (∃ t, ({ idle with inputs := [hostCommand .pack] } : State).Inv ∧ step { idle with inputs := [hostCommand .pack] } = .next t ∧
      t.busy = true ∧ idle.busy = false) ∧
    (∃ t, (hiRunning []).Inv ∧ step (hiRunning []) = .next t ∧ (hiRunning []).busy = true ∧ (hiRunning []).CoreNext ∧
      t.busy = false) ∧
    (∃ t, (hiRunning [.core]).Inv ∧ step (hiRunning [.core]) = .next t ∧ (hiRunning [.core]).CoreNext ∧ t.busy = false) ∧
    (∃ t, (hiRunning [.rstAssert]).Inv ∧ step (hiRunning [.rstAssert]) = .next t ∧ t.busy = false) ∧
    ∀ e ∈ [hostCommand .nop, Reg.wr .arg 7, Reg.rd .result], ∃ t, (running 1 0x5A 0 0 0 [e]).Inv ∧
      step (running 1 0x5A 0 0 0 [e]) = .next t ∧ t.busy = true ∧ ¬(running 1 0x5A 0 0 0 [e]).CoreNext := by
  refine ⟨⟨_, idle_inv _, rfl, rfl, rfl⟩, ⟨_, hiRunning_inv _, rfl, rfl, .inl rfl, rfl⟩,
    ⟨_, hiRunning_inv _, rfl, .inr rfl, rfl⟩, ⟨_, hiRunning_inv _, rfl, rfl⟩, ?_⟩
  simp only [List.mem_cons, List.not_mem_nil, or_false, forall_eq_or_imp, forall_eq]
  exact ⟨⟨_, running_inv _ _ _ _ _ _, rfl, rfl, by rintro (h | h) <;> cases h⟩,
    ⟨_, running_inv _ _ _ _ _ _, rfl, rfl, by rintro (h | h) <;> cases h⟩,
    ⟨_, running_inv _ _ _ _ _ _, rfl, rfl, by rintro (h | h) <;> cases h⟩⟩

/-- DONE set by a completion (see `witness_Busy`), cleared by `ack`, by acceptance and by reset. -/
theorem witness_DoneIsSticky :
    (∃ s t : State, s.Inv ∧ step s = .next t ∧ s.inputs = .regWrite 4 0x08 2 :: [] ∧ s.done = true ∧ t.done = false) ∧
    (∃ s t : State, s.Inv ∧ step s = .next t ∧ s.inputs = .regWrite 4 0x0C 0 :: [] ∧ s.done = true ∧ t.done = false) ∧
    ∃ t, (shut [.rstAssert]).Inv ∧ step (shut [.rstAssert]) = .next t ∧ (shut [.rstAssert]).done = true ∧ t.done = false :=
  ⟨⟨{ idle with done := true, inputs := [hostAck] }, _,
      ⟨rfl, rfl, by decide, by decide, rfl, nofun, nofun, by decide, fun _ => ⟨rfl, rfl⟩, nofun⟩, rfl, rfl, rfl, by decide⟩,
    ⟨{ idle with done := true, inputs := [hostCommand .nop] }, _,
      ⟨rfl, rfl, by decide, by decide, rfl, nofun, nofun, by decide, fun _ => ⟨rfl, rfl⟩, nofun⟩, rfl, rfl, rfl, by decide⟩,
    _, shut_inv _, rfl, rfl, rfl⟩

theorem witness_FatalUntilReset :
    (∃ t, (shut [.rstAssert]).Inv ∧ step (shut [.rstAssert]) = .next t ∧ (shut [.rstAssert]).fatal = true ∧ t.fatal = false) ∧
    ∃ t, (shut [.regWrite 4 0x0C 0]).Inv ∧ step (shut [.regWrite 4 0x0C 0]) = .next t ∧ t.fatal = true :=
  ⟨⟨_, shut_inv _, rfl, rfl, rfl⟩, _, shut_inv _, rfl, rfl⟩

/-- A command that ends, an illegal word that ends, and a host write that starts nothing (see `witness_Busy` for the others). -/
theorem witness_ErrOfLastCommand :
    (∃ t, (hiRunning []).Inv ∧ step (hiRunning []) = .next t ∧ (hiRunning []).CoreNext ∧
      decodeCmd (hiRunning []).curCmd = .ok .encMsg) ∧
    (∃ t, (running 0x15 0 0 0 0 []).Inv ∧ step (running 0x15 0 0 0 0 []) = .next t ∧
      decodeCmd (running 0x15 0 0 0 0 []).curCmd = .error .reservedBits ∧ t.err ≠ (running 0x15 0 0 0 0 []).err) ∧
    ∃ t, ({ idle with inputs := [.regWrite 4 0x10 7] } : State).Inv ∧ step { idle with inputs := [.regWrite 4 0x10 7] } = .next t ∧
      t.busy = idle.busy :=
  ⟨⟨_, hiRunning_inv _, rfl, .inl rfl, by decide⟩, ⟨_, running_inv _ _ _ _ _ _, rfl, by decide, by decide⟩, _, idle_inv _, rfl, rfl⟩

theorem witness_WriteAfterCompletion :
    (hiRunning [.core, .regWrite 4 0x08 2]).Inv ∧ (hiRunning [.core, .regWrite 4 0x08 2]).busy = true ∧
    (2 : Word).getLsbD 1 = true ∧ (hiRunning [.core, .regWrite 4 0x0C 0]).Inv ∧ (hiRunning [.core, .regWrite 4 0x0C 0]).busy = true :=
  ⟨hiRunning_inv _, rfl, by decide, hiRunning_inv _, rfl⟩

/-- A list with an event of every kind, each with its meaning, the byte accesses at the last byte of buffer memory. -/
theorem witness_PendingEventsDrainToIdle :
    (hiRunning [Reg.wr .ctrl 1, .memRead 0xFFF, .memWrite 0xFFF 1, .core, Reg.rd .status, .rstAssert, .rstDeassert]).Inv ∧
    ∀ e ∈ [Reg.wr .ctrl 1, .memRead 0xFFF, .memWrite 0xFFF 1, .core, Reg.rd .status, .rstAssert, .rstDeassert],
      Event.hasMeaning (hiRunning []).memSize e = true :=
  ⟨hiRunning_inv _, by decide⟩

/-- Reset meets ENC_MSG in flight (95_test_vectors.md section 12.4), an idle core and an illegal word. -/
theorem witness_ResetAbandonsCommand :
    (∃ u, (hiRunning [.rstAssert]).mem.wf = true ∧ (hiRunning [.rstAssert]).Untouched ∧
      (hiRunning [.rstAssert]).inFlight = true ∧ decodeCmd (hiRunning [.rstAssert]).curCmd = .ok .encMsg ∧
      exec .encMsg (hiRunning [.rstAssert]) = .next u ∧ commandSizes .encMsg (hiRunning []).len.toNat = some (3, 5)) ∧
    (idle.inFlight = false ∧ idle.Untouched ∧ idle.mem.wf = true) ∧
    ((running 1 0 0 0 0 []).Untouched ∧ commandSizes .encSym 0 = none) ∧
    ((running 8 0 0 0 0 []).inFlight = true ∧ 8 ≤ (running 8 0 0 0 0 []).curCmd.toNat) :=
  ⟨⟨_, by decide, ⟨rfl, rfl⟩, rfl, by decide, rfl, by decide⟩, ⟨rfl, ⟨rfl, rfl⟩, rfl⟩, ⟨⟨rfl, rfl⟩, rfl⟩, rfl, by decide⟩

/-- Every kind of step while `rst` is asserted that leaves memory alone, and the deassertion while it is low. -/
theorem witness_HeldInReset :
    (idle.rst = false ∧ ({ idle with inputs := [.rstDeassert] } : State).inputs = .rstDeassert :: []) ∧ (held []).CoreNext ∧
    (held [.core]).CoreNext ∧
    ∀ e ∈ [Reg.wr .cmd 0, Reg.rd .id, .core, .rstAssert, .rstDeassert, .memRead 0], ∃ t, (held [e]).Inv ∧ (held [e]).rst = true ∧
      step (held [e]) = .next t ∧ ∀ a v rest, (held [e]).inputs ≠ .memWrite a v :: rest := by
  refine ⟨⟨rfl, rfl⟩, .inl rfl, .inr rfl, ?_⟩
  simp only [List.mem_cons, List.not_mem_nil, or_false, forall_eq_or_imp, forall_eq]
  exact ⟨⟨_, held_inv _, rfl, rfl, nofun⟩, ⟨_, held_inv _, rfl, rfl, nofun⟩, ⟨_, held_inv _, rfl, rfl, nofun⟩,
    ⟨_, held_inv _, rfl, rfl, nofun⟩, ⟨_, held_inv _, rfl, rfl, nofun⟩, ⟨_, held_inv _, rfl, rfl, nofun⟩⟩

/-- A read of the last output byte of a command in flight, and of the last byte of memory with none and with an illegal word. -/
theorem witness_HostReadsOldOrNewByte :
    (∃ u, (hiRunning [.memRead 0x204]).mem.wf = true ∧ (hiRunning [.memRead 0x204]).Untouched ∧
      (0x204 : Word).toNat < (hiRunning []).memSize ∧ (hiRunning [.memRead 0x204]).inFlight = true ∧
      decodeCmd (hiRunning [.memRead 0x204]).curCmd = .ok .encMsg ∧ exec .encMsg (hiRunning [.memRead 0x204]) = .next u) ∧
    (idle.mem.wf = true ∧ idle.Untouched ∧ (0xFFF : Word).toNat < idle.memSize ∧ idle.inFlight = false) ∧
    ((running 8 0 0 0 0 []).mem.wf = true ∧ (running 8 0 0 0 0 []).Untouched ∧ 8 ≤ (running 8 0 0 0 0 []).curCmd.toNat) :=
  ⟨⟨_, by decide, ⟨rfl, rfl⟩, by decide, rfl, by decide, rfl⟩, ⟨by decide, ⟨rfl, rfl⟩, by decide, rfl⟩, rfl, ⟨rfl, rfl⟩, by decide⟩

theorem hiRunning_in_flight : (hiRunning []).mem.wf = true ∧ (hiRunning []).Untouched ∧ (hiRunning []).inFlight = true ∧
    decodeCmd (hiRunning []).curCmd = .ok .encMsg ∧ commandSizes .encMsg (hiRunning []).len.toNat = some (3, 5) ∧
    (hiRunning []).RangesPass 3 5 :=
  ⟨by decide, ⟨rfl, rfl⟩, rfl, by decide, by decide, hiRunning_ranges⟩

/-- Host writes to the first and the last output byte (with `hiRunning_in_flight`). -/
theorem witness_HostWriteToOutputByte :
    (∃ t, (hiRunning []).dst.toNat ≤ (0x200 : Word).toNat ∧ hostWriteByte 0x200 0xFF (hiRunning []) = .next t) ∧
    ∃ t, (0x204 : Word).toNat < (hiRunning []).dst.toNat + 5 ∧ hostWriteByte 0x204 0xFF (hiRunning []) = .next t :=
  ⟨⟨_, by decide, rfl⟩, _, by decide, rfl⟩

/-- Host writes to the first and the last input byte (with `hiRunning_in_flight`), and to an input byte of PACK. -/
theorem witness_HostWriteToInputByte :
    (∃ t, (hiRunning []).src.toNat ≤ (0x100 : Word).toNat ∧ hostWriteByte 0x100 0xFF (hiRunning []) = .next t) ∧
    (∃ t, (0x102 : Word).toNat < (hiRunning []).src.toNat + 3 ∧ hostWriteByte 0x102 0xFF (hiRunning []) = .next t) ∧
    ∃ t, (packRunning []).RangesPass 4 3 ∧ (packRunning []).Untouched ∧ hostWriteByte 0x103 0xFF (packRunning []) = .next t :=
  ⟨⟨_, by decide, rfl⟩, ⟨_, by decide, rfl⟩, _, ⟨by decide, by decide, by decide, by decide, by decide⟩, ⟨rfl, rfl⟩, rfl⟩

/-- No range in flight: an idle core, a register command, an illegal word, a command whose ranges overlap; and the first and the last
byte of memory to write. -/
theorem witness_HostWriteElsewhere_no_ranges :
    idle.flightRanges = none ∧ (running 1 0x5A 0 0 0 []).flightRanges = none ∧ (running 8 0 0 0 0 []).flightRanges = none ∧
    (running 4 0 0x100 0x104 3 []).flightRanges = none ∧ idle.mem.wf = true ∧ (0 : Word).toNat < idle.memSize ∧
    (0xFFF : Word).toNat < idle.memSize := by decide

/-- Host writes next to the input and to the output range (with `hiRunning_in_flight`). -/
theorem witness_HostWriteElsewhere :
    (∃ t, ¬((0x100 : Nat) ≤ (0x103 : Word).toNat ∧ (0x103 : Word).toNat < 0x100 + 3) ∧
      ¬((0x200 : Nat) ≤ (0x103 : Word).toNat ∧ (0x103 : Word).toNat < 0x200 + 5) ∧
      hostWriteByte 0x103 0xFF (hiRunning []) = .next t) ∧
    ∃ t, ¬((0x200 : Nat) ≤ (0x205 : Word).toNat ∧ (0x205 : Word).toNat < 0x200 + 5) ∧
      hostWriteByte 0x205 0xFF (hiRunning []) = .next t :=
  ⟨⟨_, by decide, by decide, rfl⟩, _, by decide, rfl⟩

/-- A host that writes just past the output range and reads an input byte keeps its duty. -/
theorem witness_DutyKeepsUntouched : ∀ e ∈ [Event.memWrite 0x205 1, .memRead 0x102], ∃ t, (hiRunning [e]).Inv ∧
    (hiRunning [e]).Untouched ∧ (∀ e', (hiRunning [e]).inputs.head? = some e' → (hiRunning [e]).dutyKept e' = true) ∧
    step (hiRunning [e]) = .next t := by
  simp only [List.mem_cons, List.not_mem_nil, or_false, forall_eq_or_imp, forall_eq]
  exact ⟨⟨_, hiRunning_inv _, ⟨rfl, rfl⟩, fun e' h => by injection h with h; subst h; decide, rfl⟩,
    ⟨_, hiRunning_inv _, ⟨rfl, rfl⟩, fun e' h => by injection h with h; subst h; decide, rfl⟩⟩

theorem witness_FreeValuesDoNotShow : ∃ t t', (hiRunning []).Untouched ∧ exec .encMsg (hiRunning []) = .next t ∧
    exec .encMsg { hiRunning [] with draws := 1, curCmd := 5 } = .next t' := ⟨_, _, ⟨rfl, rfl⟩, rfl, rfl⟩

theorem witness_StepKeepsInvariant : ∃ t, (hiRunning [.memWrite 0x100 0]).Inv ∧ step (hiRunning [.memWrite 0x100 0]) = .next t :=
  ⟨_, hiRunning_inv _, rfl⟩

/-- The first byte past buffer memory; a byte access and a misaligned access of the window; a step that goes on. -/
theorem witness_StepStopsOnlyOnHostAccess :
    (∃ f, step { idle with inputs := [.memRead 0x1000] } = .fault f) ∧
    (∃ f, step { idle with inputs := [.memWrite 0x1000 1] } = .fault f) ∧
    (∃ r, step { idle with inputs := [.regRead 1 0] } = .refused r) ∧
    (∃ r, step { idle with inputs := [.regWrite 4 0x0E 1] } = .refused r) ∧ ∃ t, step idle = .next t :=
  ⟨⟨_, rfl⟩, ⟨_, rfl⟩, ⟨_, rfl⟩, ⟨_, rfl⟩, _, rfl⟩

/-- "Hi!" encoded, received at 0x300 of another machine with one bit flipped in each symbol. -/
theorem witness_EncodeTransmitDecode : ∃ s t r : State, s.mem.wf = true ∧ s.Untouched ∧
    s.RangesPass s.len.toNat (encLen s.len.toNat) ∧ exec .encMsg s = .next t ∧ r.mem.wf = true ∧ r.Untouched ∧ r.len = s.len ∧
    r.RangesPass (encLen s.len.toNat) s.len.toNat ∧
    AtMostOneFlipEach (unpackBytes (t.mem.readBytes s.dst.toNat (encLen s.len.toNat)) s.len.toNat)
      (unpackBytes (r.mem.readBytes r.src.toNat (encLen s.len.toNat)) s.len.toNat) := by
  refine ⟨hiRunning [], _, runningOn 4 0x300 0x400 3 0x300 [0x99, 0xC8, 0x51, 0xD1, 0x04] [], by decide, ⟨rfl, rfl⟩,
    ⟨by decide, by decide, by decide, by decide, by decide⟩, rfl, by decide, ⟨rfl, rfl⟩, rfl,
    ⟨by decide, by decide, by decide, by decide, by decide⟩, ?_⟩
  have h1 : unpackBytes ((hiRunning []).finish (planEncMsg (hiRunning [])) |>.mem.readBytes 0x200 5) 3 = [0x198, 0x5C9, 0x451] := by
    decide
  have h2 : unpackBytes ((runningOn 4 0x300 0x400 3 0x300 [0x99, 0xC8, 0x51, 0xD1, 0x04] []).mem.readBytes 0x300 5) 3 =
      [0x199, 0x5C8, 0x4D1] := by decide
  show AtMostOneFlipEach (unpackBytes ((hiRunning []).finish (planEncMsg (hiRunning [])) |>.mem.readBytes 0x200 5) 3)
    (unpackBytes ((runningOn 4 0x300 0x400 3 0x300 [0x99, 0xC8, 0x51, 0xD1, 0x04] []).mem.readBytes 0x300 5) 3)
  rw [h1, h2]
  exact .cons (.inr ⟨0, by decide, by decide⟩) (.cons (.inr ⟨0, by decide, by decide⟩)
    (.cons (.inr ⟨7, by decide, by decide⟩) .nil))

/-- [198, 5C9] packed, and the bytes received at 0x300 of another machine. -/
theorem witness_PackTransmitUnpack : ∃ s t r : State, s.mem.wf = true ∧ s.Untouched ∧
    s.RangesPass (2 * s.len.toNat) (encLen s.len.toNat) ∧ exec .pack s = .next t ∧ t.err = 0 ∧ r.mem.wf = true ∧ r.Untouched ∧
    r.len = s.len ∧ r.RangesPass (encLen s.len.toNat) (2 * s.len.toNat) ∧
    r.mem.readBytes r.src.toNat (encLen s.len.toNat) = t.mem.readBytes s.dst.toNat (encLen s.len.toNat) :=
  ⟨packRunning [], _, runningOn 6 0x300 0x400 2 0x300 [0x98, 0xC9, 0x51] [], by decide, ⟨rfl, rfl⟩,
    ⟨by decide, by decide, by decide, by decide, by decide⟩, rfl, by decide, by decide, ⟨rfl, rfl⟩, rfl,
    ⟨by decide, by decide, by decide, by decide, by decide⟩, by decide⟩

end Sys2Proof.Tests
end

section
/-! The invariant of the machine, kept by each operation a step is made of, and so by every step (10_state.md R41, R44;
20_memory.md R60; 60_exceptions.md R171, R178; 70_reset_and_hazards.md R200). -/

namespace Sys2Proof.Machine

/-! ### The state with its oldest event used up -/

@[simp] theorem State.popped_irqEn (s : State) : s.popped.irqEn = s.irqEn := rfl
@[simp] theorem State.popped_busy (s : State) : s.popped.busy = s.busy := rfl
@[simp] theorem State.popped_done (s : State) : s.popped.done = s.done := rfl
@[simp] theorem State.popped_fatal (s : State) : s.popped.fatal = s.fatal := rfl
@[simp] theorem State.popped_err (s : State) : s.popped.err = s.err := rfl
@[simp] theorem State.popped_arg (s : State) : s.popped.arg = s.arg := rfl
@[simp] theorem State.popped_result (s : State) : s.popped.result = s.result := rfl
@[simp] theorem State.popped_src (s : State) : s.popped.src = s.src := rfl
@[simp] theorem State.popped_dst (s : State) : s.popped.dst = s.dst := rfl
@[simp] theorem State.popped_len (s : State) : s.popped.len = s.len := rfl
@[simp] theorem State.popped_inFlight (s : State) : s.popped.inFlight = s.inFlight := rfl
@[simp] theorem State.popped_curCmd (s : State) : s.popped.curCmd = s.curCmd := rfl
@[simp] theorem State.popped_mem (s : State) : s.popped.mem = s.mem := rfl
@[simp] theorem State.popped_memSize (s : State) : s.popped.memSize = s.memSize := rfl
@[simp] theorem State.popped_rst (s : State) : s.popped.rst = s.rst := rfl
@[simp] theorem State.popped_inputs (s : State) : s.popped.inputs = s.inputs.tail := rfl
@[simp] theorem State.popped_lastRead (s : State) : s.popped.lastRead = s.lastRead := rfl
@[simp] theorem State.popped_draws (s : State) : s.popped.draws = s.draws := rfl

theorem State.popped_of_cons {s : State} {e : Event} {rest : List Event} (he : s.inputs = e :: rest) :
    s.popped = { s with inputs := rest } := by
  simp [State.popped, he]

theorem State.popped_of_nil {s : State} (h : s.inputs = []) : s.popped = s := by
  simp only [State.popped, h, List.tail_nil]
  rw [← h]

/-! ### States at reset -/

theorem State.reset_atReset : State.reset.AtReset := ⟨rfl, rfl, rfl, rfl, rfl, rfl, rfl, rfl, rfl, rfl, rfl⟩

/-- At either edge of `rst` the core takes its reset values (70_reset_and_hazards.md R200). -/
theorem State.atReset_of_rst (s : State) (b : Bool) : ({ s.resetCore with rst := b } : State).AtReset :=
  ⟨rfl, rfl, rfl, rfl, rfl, rfl, rfl, rfl, rfl, rfl, rfl⟩

/-- The reset values say nothing of memory, the hidden word, the platform and the model's bookkeeping. -/
theorem State.AtReset.update {s : State} (h : s.AtReset) (c : Word) (m : Memory) (i : List Event) (l : Option ReadReply) (k : Nat)
    (b : Bool) (ws : List Nat) :
    ({ s with
      curCmd := c, mem := m, inputs := i, lastRead := l, draws := k, inputTampered := b, hostWrote := ws } : State).AtReset :=
  ⟨h.irqEn, h.busy, h.done, h.fatal, h.err, h.arg, h.result, h.src, h.dst, h.len, h.inFlight⟩

/-- With the reset values in the core the invariant is about memory and the bookkeeping alone. -/
theorem State.AtReset.inv {s : State} (h : s.AtReset) (hu : s.Untouched) (hw : s.mem.wf = true)
    (hb : s.mem.below s.memSize = true) (hpos : 1 ≤ s.memSize) (hle : s.memSize ≤ 2 ^ 32) : s.Inv where
  mem_wf := hw
  mem_below := hb
  memSize_pos := hpos
  memSize_le := hle
  inFlight_eq_busy := h.inFlight.trans h.busy.symm
  busy_clear hbusy := by simp [h.busy] at hbusy
  fatal_err hfatal := by simp [h.fatal] at hfatal
  err_legal := by simp [h.err]
  idle_untouched _ := hu
  held_at_reset _ := h

/-- Settles O56: the core holds its reset values, and its memory is empty. -/
theorem resetMeetsInvariant : Obligations.ResetMeetsInvariant :=
  State.reset_atReset.inv ⟨rfl, rfl⟩ rfl rfl (by decide) (by decide)

/-! ### What the invariant says of a command in flight -/

section
variable {s : State} (h : s.Inv)
include h

theorem State.Inv.rst_of_busy (hb : s.busy = true) : s.rst = false := by
  by_contra hr
  simp [(h.held_at_reset (by simpa using hr)).busy] at hb

theorem State.Inv.not_busy_of_fatal (hf : s.fatal = true) : s.busy = false := by
  by_contra hb
  simp [(h.busy_clear (by simpa using hb)).2.2] at hf

theorem State.Inv.not_fatal_of_busy (hb : s.busy = true) : s.fatal = false := (h.busy_clear hb).2.2

/-! ### The invariant kept by each operation -/

/-- The invariant allows any canonical memory inside MEM_SIZE and any bookkeeping, but no breach recorded while idle. -/
theorem State.Inv.update (c : Word) {m : Memory} (hw : m.wf = true) (hb : m.below s.memSize = true) (i : List Event)
    (l : Option ReadReply) (k : Nat) {b : Bool} {ws : List Nat} (hu : s.busy = false → b = false ∧ ws = []) :
    ({ s with
      curCmd := c, mem := m, inputs := i, lastRead := l, draws := k, inputTampered := b, hostWrote := ws } : State).Inv where
  mem_wf := hw
  mem_below := hb
  memSize_pos := h.memSize_pos
  memSize_le := h.memSize_le
  inFlight_eq_busy := h.inFlight_eq_busy
  busy_clear := h.busy_clear
  fatal_err := h.fatal_err
  err_legal := h.err_legal
  idle_untouched hbusy := ⟨(hu hbusy).1, (hu hbusy).2⟩
  held_at_reset hr := (h.held_at_reset hr).update c m i l k b ws

theorem State.Inv.untouched_of_idle (hb : s.busy = false) : s.inputTampered = false ∧ s.hostWrote = [] :=
  ⟨(h.idle_untouched hb).input, (h.idle_untouched hb).output⟩

/-- The pending events, the last reply and the number of draws are no part of the invariant. -/
theorem State.Inv.bookkeeping (i : List Event) (l : Option ReadReply) (k : Nat) :
    ({ s with inputs := i, lastRead := l, draws := k } : State).Inv :=
  h.update s.curCmd h.mem_wf h.mem_below i l k h.untouched_of_idle

theorem State.Inv.popped : s.popped.Inv := h.bookkeeping _ _ _

theorem State.Inv.withMem {m : Memory} (hw : m.wf = true) (hb : m.below s.memSize = true) (k : Nat) :
    ({ s with mem := m, draws := k } : State).Inv :=
  h.update s.curCmd hw hb s.inputs s.lastRead k h.untouched_of_idle

/-- Bytes written inside buffer memory keep the invariant. -/
theorem State.Inv.writeBytes {base : Nat} {out : List Byte} (hin : out = [] ∨ base + out.length ≤ s.memSize) (k : Nat) :
    ({ s with mem := s.mem.writeBytes base out, draws := k } : State).Inv :=
  h.withMem (Memory.wf_writeBytes out base h.mem_wf) (Memory.below_writeBytes out hin h.mem_below) k

/-- A host byte write keeps the invariant, a record of a breach being kept while a command is in flight alone. -/
theorem State.Inv.hostWrite {a : Nat} (ha : a < s.memSize) (v : Byte) {b : Bool} {ws : List Nat}
    (hu : s.busy = false → b = false ∧ ws = []) :
    ({ s with mem := s.mem.write a v, inputTampered := b, hostWrote := ws } : State).Inv :=
  h.update s.curCmd (Memory.wf_write a v h.mem_wf) (Memory.below_write v ha h.mem_below) s.inputs s.lastRead s.draws hu

/-- Reset, at either edge of `rst`, keeps the invariant. -/
theorem State.Inv.resetCore (b : Bool) : ({ s.resetCore with rst := b } : State).Inv :=
  (s.atReset_of_rst b).inv ⟨rfl, rfl⟩ h.mem_wf h.mem_below h.memSize_pos h.memSize_le

/-- The end of a command keeps the invariant, when it leaves FATAL clear and an ERR code that exists. -/
theorem State.Inv.endCommand (hr : s.rst = false) (hf : s.fatal = false) {c : BitVec 4} (hc : c.toNat ≤ 4) (r : Word) :
    ({ s.endCommand with err := c, result := r } : State).Inv where
  mem_wf := h.mem_wf
  mem_below := h.mem_below
  memSize_pos := h.memSize_pos
  memSize_le := h.memSize_le
  inFlight_eq_busy := rfl
  busy_clear := nofun
  fatal_err hfatal := by simp [hf] at hfatal
  err_legal := hc
  idle_untouched _ := ⟨rfl, rfl⟩
  held_at_reset hrst := by simp [hr] at hrst

theorem State.Inv.raise (hr : s.rst = false) (hf : s.fatal = false) (c : CmdError) : (s.raise c).Inv :=
  h.endCommand hr hf (by cases c <;> decide) s.result

theorem State.Inv.complete (hr : s.rst = false) (hf : s.fatal = false) (r : Option Word) : (s.complete r).Inv :=
  h.endCommand hr hf (by decide) (r.getD s.result)

/-- Every end of a command keeps the invariant: what it writes lies inside buffer memory, and the length postcondition holds. -/
theorem State.Inv.finish (hr : s.rst = false) (hf : s.fatal = false) (i : Instr) : (s.finish (planOf i s)).Inv := by
  rcases planOf_cases i s with ⟨c, hp⟩ | ⟨r, hp⟩ | ⟨m, n, out, _, hpass, hlen, hp⟩ <;> rw [hp]
  · exact h.raise hr hf c
  · exact h.complete hr hf r
  · have hin : s.settle s.dst.toNat out = [] ∨ s.dst.toNat + (s.settle s.dst.toNat out).length ≤ s.memSize := by
      simpa [← List.length_eq_zero_iff, hlen] using hpass.dst_inside
    exact (h.writeBytes hin s.draws).complete hr hf _

theorem State.Inv.latch (w : Word) (hr : s.rst = false) (hf : s.fatal = false) : (s.latch w).Inv where
  mem_wf := h.mem_wf
  mem_below := h.mem_below
  memSize_pos := h.memSize_pos
  memSize_le := h.memSize_le
  inFlight_eq_busy := rfl
  busy_clear _ := ⟨rfl, rfl, hf⟩
  fatal_err hfatal := by simp [hf] at hfatal
  err_legal := by simp
  idle_untouched := nofun
  held_at_reset hrst := by simp [hr] at hrst

theorem State.Inv.accept (w : Word) (hr : s.rst = false) : (s.accept w).Inv := by
  rcases s.accept_cases w with ⟨_, ha⟩ | ⟨_, _, ha⟩ | ⟨hf, _, ha⟩ <;> rw [ha]
  · exact h
  · exact h
  · exact h.latch w hr hf

/-- With `rst` low the control bit, the operands and a cleared DONE are free. -/
theorem State.Inv.controlAndOperands (hr : s.rst = false) (q d : Bool) (hd : d = true → s.done = true) (a src dst len : Word) :
    ({ s with irqEn := q, done := d, arg := a, src := src, dst := dst, len := len } : State).Inv where
  mem_wf := h.mem_wf
  mem_below := h.mem_below
  memSize_pos := h.memSize_pos
  memSize_le := h.memSize_le
  inFlight_eq_busy := h.inFlight_eq_busy
  busy_clear hb := by
    obtain ⟨hdone, herr, hfatal⟩ := h.busy_clear hb
    exact ⟨by simpa [hdone] using hd, herr, hfatal⟩
  fatal_err := h.fatal_err
  err_legal := h.err_legal
  idle_untouched hb := ⟨(h.idle_untouched hb).input, (h.idle_untouched hb).output⟩
  held_at_reset hrst := by simp [hr] at hrst

/-- A host write of the window with `rst` low keeps the invariant. -/
theorem State.Inv.writeReg (hr : s.rst = false) (r : Reg) (w : Word) : (s.writeReg r w).Inv := by
  cases r with
  | id | result | reserved => exact h
  | ctrl => exact h.controlAndOperands hr (w.getLsbD 0) s.done id s.arg s.src s.dst s.len
  | cmd => exact h.accept w hr
  | status =>
    simp only [State.writeReg]
    split
    · exact h.controlAndOperands hr s.irqEn false nofun s.arg s.src s.dst s.len
    · exact h
  | arg =>
    simp only [State.writeReg]
    split
    · exact h
    · exact h.controlAndOperands hr s.irqEn s.done id w s.src s.dst s.len
  | src =>
    simp only [State.writeReg]
    split
    · exact h
    · exact h.controlAndOperands hr s.irqEn s.done id s.arg w s.dst s.len
  | dst =>
    simp only [State.writeReg]
    split
    · exact h
    · exact h.controlAndOperands hr s.irqEn s.done id s.arg s.src w s.len
  | len =>
    simp only [State.writeReg]
    split
    · exact h
    · exact h.controlAndOperands hr s.irqEn s.done id s.arg s.src s.dst w

end

/-- The output of the command in flight is empty or lies inside buffer memory. -/
theorem State.flightOutput_inside {s : State} {base : Nat} {out : List Byte} (h : s.flightOutput = some (base, out)) :
    out = [] ∨ base + out.length ≤ s.memSize := by
  unfold State.flightOutput at h
  cases hf : s.flight with
  | none => simp [hf] at h
  | some i =>
    rcases planOf_cases i s with ⟨c, hp⟩ | ⟨r, hp⟩ | ⟨m, n, o, _, hpass, hlen, hp⟩ <;>
      simp only [hf, hp, reduceCtorEq, Option.some.injEq, Prod.mk.injEq] at h <;> obtain ⟨rfl, rfl⟩ := h
    · exact .inl rfl
    · simpa [← List.length_eq_zero_iff, hlen] using hpass.dst_inside

theorem State.Inv.abandon {s : State} (h : s.Inv) : s.abandon.Inv := by
  unfold State.abandon
  split
  next => exact h
  next base out ho => exact h.writeBytes (by simpa [← List.length_eq_zero_iff] using State.flightOutput_inside ho) (s.draws + 1)

/-- Only while a command is in flight has it ranges a host write can meet. -/
theorem State.Inv.busy_of_flightRanges {s : State} (h : s.Inv) {r : Ranges} (hf : s.flightRanges = some r) : s.busy = true :=
  h.inFlight_eq_busy ▸ inFlight_of_flightRanges hf

/-- Settles O57: each thing a step can do keeps the invariant. -/
theorem stepKeepsInvariant : Obligations.StepKeepsInvariant := by
  intro s t h hstep
  have hp : s.popped.Inv := h.popped
  have hnf (hf : s.inFlight = true) : s.fatal = false := h.not_fatal_of_busy (h.inFlight_eq_busy ▸ hf)
  cases step_next_case hstep with
  | waits hc hi ht => exact ht ▸ hp
  | runs hc hr hf i hd ht => exact ht ▸ hp.finish hr (hnf hf) i
  | rejects hc hr hf r hd ht => exact ht ▸ hp.raise hr (hnf hf) .illegalCommand
  | regRead n o rest he hr v k ht => exact ht ▸ hp.bookkeeping _ _ k
  | regWriteHeld n o w rest he hs ht => exact ht ▸ hp
  | regWrite n o w rest he hs r hr ht => exact ht ▸ hp.writeReg hs r w
  | memRead a rest he ha v k ht => exact ht ▸ hp.bookkeeping _ _ k
  | memWriteApart a v rest he ha hf ht => exact ht ▸ hp.hostWrite ha v hp.untouched_of_idle
  | memWriteInFlight a v rest he ha r hf ht =>
    have hbusy : s.busy = true := hp.busy_of_flightRanges hf
    exact ht ▸ hp.hostWrite ha v fun hidle => by simp [hbusy] at hidle
  | rstAssert rest he ht => exact ht ▸ hp.abandon.resetCore true
  | rstDeassert rest he hs ht => exact ht ▸ hp.resetCore false
  | rstNoEdge rest he hs ht => exact ht ▸ hp

end Sys2Proof.Machine
end

section
/-! The register window: STATUS and CTRL bit by bit, and what each offset reads and writes (10_state.md R21 to R38, R44). -/

namespace Sys2Proof.Machine

/-! ### The bits of CTRL and STATUS -/

theorem getLsbD_bitAt (b : Bool) {n : Nat} (hn : n < 32) (i : Nat) : (bitAt b n).getLsbD i = (decide (i = n) && b) := by
  cases b with
  | false => simp [bitAt]
  | true =>
    simp only [bitAt, BitVec.getLsbD_shiftLeft, BitVec.getLsbD_setWidth, BitVec.getLsbD_ofBool]
    by_cases h : i = n
    · simp [h, hn]
    · simp [h]
      omega

theorem State.getLsbD_ctrlWord (s : State) (i : Nat) : s.ctrlWord.getLsbD i = (decide (i = 0) && s.irqEn) :=
  getLsbD_bitAt s.irqEn (by decide) i

/-- The layout of STATUS (10_state.md R24). -/
theorem State.getLsbD_statusWord (s : State) {i : Nat} (hi : i < 32) :
    s.statusWord.getLsbD i =
      (decide (i = 0) && s.busy || decide (i = 1) && s.done || decide (i = 2) && s.fatal || decide (4 ≤ i) && s.err.getLsbD (i - 4)) := by
  have herr : (s.err.setWidth 32 <<< 4).getLsbD i = (decide (4 ≤ i) && s.err.getLsbD (i - 4)) := by
    rw [BitVec.getLsbD_shiftLeft, BitVec.getLsbD_setWidth]
    by_cases h4 : 4 ≤ i
    · simp [hi, h4, show i - 4 < 32 by omega]
    · simp [h4, show i < 4 by omega]
  rw [State.statusWord, BitVec.getLsbD_or, BitVec.getLsbD_or, BitVec.getLsbD_or, herr, getLsbD_bitAt _ (by decide),
    getLsbD_bitAt _ (by decide), getLsbD_bitAt _ (by decide)]

theorem State.statusWord_err (s : State) : s.statusWord.extractLsb' 4 4 = s.err := by
  refine BitVec.eq_of_getLsbD_eq fun i hi => ?_
  rw [BitVec.getLsbD_extractLsb', s.getLsbD_statusWord (by omega)]
  simp [hi, show 4 + i ≠ 1 by omega, show 4 + i ≠ 2 by omega]

theorem State.statusWord_reserved (s : State) : s.statusWord.extractLsb' 8 24 = 0#24 := by
  refine BitVec.eq_of_getLsbD_eq fun i hi => ?_
  have herr : s.err.getLsbD (8 + i - 4) = false := BitVec.getLsbD_of_ge _ _ (by omega)
  rw [BitVec.getLsbD_extractLsb', s.getLsbD_statusWord (by omega), herr]
  simp [show 8 + i ≠ 1 by omega, show 8 + i ≠ 2 by omega]

theorem State.ctrlWord_reserved (s : State) : s.ctrlWord.extractLsb' 1 31 = 0#31 := by
  refine BitVec.eq_of_getLsbD_eq fun i hi => ?_
  rw [BitVec.getLsbD_extractLsb', s.getLsbD_ctrlWord]
  simp

/-! ### The registers at their offsets -/

theorem State.writeReg_status (s : State) (w : Word) :
    s.writeReg .status w = { s with done := s.done && !w.getLsbD 1 } := by
  cases hw : w.getLsbD 1 <;> simp only [State.writeReg, hw] <;> simp

/-- With `rst` low a write to the offset of a register writes that register. -/
theorem hostWriteReg_at {s : State} (hs : s.rst = false) (w : Word) (r : Reg) (hr : r ≠ .reserved) :
    hostWriteReg 4 r.offset w s = .next (s.writeReg r w) :=
  hostWriteReg_of_regAt ((regAt_eq_some hr).2 ⟨rfl, rfl⟩) hs w

theorem hostWriteReg_ctrl {s : State} (hs : s.rst = false) (w : Word) :
    hostWriteReg 4 0x04 w s = .next { s with irqEn := w.getLsbD 0 } :=
  hostWriteReg_at hs w .ctrl nofun

theorem hostWriteReg_status {s : State} (hs : s.rst = false) (w : Word) :
    hostWriteReg 4 0x08 w s = .next { s with done := s.done && !w.getLsbD 1 } :=
  (hostWriteReg_at hs w .status nofun).trans (by rw [State.writeReg_status])

theorem hostWriteReg_cmd {s : State} (hs : s.rst = false) (w : Word) : hostWriteReg 4 0x0C w s = .next (s.accept w) :=
  hostWriteReg_at hs w .cmd nofun

theorem hostWriteReg_reserved {s : State} (hs : s.rst = false) (w : Word) {o : BitVec 6} (ho : 0x24 ≤ o.toNat)
    (ha : o.toNat % 4 = 0) : hostWriteReg 4 o w s = .next s :=
  hostWriteReg_of_regAt (regAt_eq_reserved.2 ⟨rfl, ha, ho⟩) hs w

/-- Settles O35: each offset names its register, and `writeReg` says what the register takes. -/
theorem hostWriteTable : Obligations.HostWriteTable := by
  intro s w hs
  exact ⟨hostWriteReg_at hs w .id nofun, hostWriteReg_ctrl hs w, hostWriteReg_status hs w, hostWriteReg_cmd hs w,
    hostWriteReg_at hs w .arg nofun, hostWriteReg_at hs w .result nofun, hostWriteReg_at hs w .src nofun,
    hostWriteReg_at hs w .dst nofun, hostWriteReg_at hs w .len nofun, fun _ ho ha => hostWriteReg_reserved hs w ho ha⟩

/-- An access that is not a naturally aligned 32-bit access names no register (10_state.md R36). -/
theorem regAt_eq_none {n : Nat} {o : BitVec 6} : regAt n o = none ↔ n ≠ 4 ∨ o.toNat % 4 ≠ 0 := by
  rw [← Option.not_isSome_iff_eq_none, regAt_isSome]
  simp [imp_iff_not_or]

theorem hostReadReg_refused {n : Nat} {o : BitVec 6} (h : n ≠ 4 ∨ o.toNat % 4 ≠ 0) (s : State) :
    hostReadReg n o s = .refused (.windowAccess n o) := by
  simp [hostReadReg, regAt_eq_none.2 h]

theorem hostWriteReg_refused {n : Nat} {o : BitVec 6} (h : n ≠ 4 ∨ o.toNat % 4 ≠ 0) (w : Word) (s : State) :
    hostWriteReg n o w s = .refused (.windowAccess n o) := by
  simp [hostWriteReg, regAt_eq_none.2 h]

/-- An aligned offset names a register: the one at that offset, or a reserved one. -/
theorem regAt_aligned {o : BitVec 6} (ha : o.toNat % 4 = 0) : ∃ r, regAt 4 o = some r := by
  rw [← Option.isSome_iff_exists, regAt_isSome]
  simp [ha]

/-- Settles O36: a read answers the register its offset names, and changes the record of the reply alone. -/
theorem windowReads : Obligations.WindowReads := by
  refine ⟨fun s o hs ha => ?_, fun s w o hs ho ha => hostWriteReg_reserved hs w ho ha,
    fun s w n o h => ⟨hostReadReg_refused h s, hostWriteReg_refused h w s⟩⟩
  obtain ⟨r, hr⟩ := regAt_aligned ha
  have value (r' : Reg) (h' : regAt 4 o = some r') : s.readReg r = s.readReg r' := by
    rw [Option.some.inj (hr.symm.trans h')]
  have named (r' : Reg) (hne : r' ≠ .reserved) (ho : o = r'.offset) : s.readReg r = s.readReg r' :=
    value r' ((regAt_eq_some hne).2 ⟨rfl, ho⟩)
  exact ⟨s.readReg r, hostReadReg_of_regAt hr hs, named .id nofun, named .ctrl nofun, named .status nofun, named .cmd nofun,
    named .arg nofun, named .result nofun, named .src nofun, named .dst nofun, named .len nofun,
    fun ho => value .reserved (regAt_eq_reserved.2 ⟨rfl, ha, ho⟩)⟩

/-- Settles O37: the layout of the two words, bit by bit, and the writes of CTRL and STATUS. -/
theorem statusAndControlFields : Obligations.StatusAndControlFields := by
  refine ⟨by decide, fun s => ⟨⟨?_, ?_, ?_, ?_, s.statusWord_err, s.statusWord_reserved⟩, ⟨?_, s.ctrlWord_reserved⟩, ?_,
    fun w hs => ⟨hostWriteReg_ctrl hs w, hostWriteReg_status hs w⟩⟩⟩
  · simp [s.getLsbD_statusWord (i := 0) (by decide), -BitVec.getLsbD_eq_getElem]
  · simp [s.getLsbD_statusWord (i := 1) (by decide), -BitVec.getLsbD_eq_getElem]
  · simp [s.getLsbD_statusWord (i := 2) (by decide), -BitVec.getLsbD_eq_getElem]
  · simp [s.getLsbD_statusWord (i := 3) (by decide), -BitVec.getLsbD_eq_getElem]
  · simp [s.getLsbD_ctrlWord, -BitVec.getLsbD_eq_getElem]
  · cases hq : s.irqEn <;> simp [State.irq, hq]

/-! ### Reset values -/

theorem State.AtReset.irq {s : State} (h : s.AtReset) : s.irq = false := by simp [State.irq, h.done]

/-- Settles O47: an assertion of `rst` ends in `resetCore`, whatever the core was doing. -/
theorem resetValues : Obligations.ResetValues :=
  ⟨⟨State.reset_atReset, State.reset_atReset.irq, rfl⟩,
    fun s => ⟨_, rfl, s.abandon.atReset_of_rst true, (s.abandon.atReset_of_rst true).irq, rfl⟩⟩

/-! ### The interrupt output -/

theorem State.irq_eq_true_iff (s : State) : s.irq = true ↔ s.done = true ∧ s.irqEn = true := by simp [State.irq]

@[simp] theorem State.finish_irqEn (e : CmdEnd) (s : State) : (s.finish e).irqEn = s.irqEn := by cases e <;> rfl
@[simp] theorem State.finish_rst (e : CmdEnd) (s : State) : (s.finish e).rst = s.rst := by cases e <;> rfl
@[simp] theorem State.finish_memSize (e : CmdEnd) (s : State) : (s.finish e).memSize = s.memSize := by cases e <;> rfl
@[simp] theorem State.finish_inputs (e : CmdEnd) (s : State) : (s.finish e).inputs = s.inputs := by cases e <;> rfl

/-- Every end of a command sets DONE, so `irq` follows IRQ_EN (10_state.md R38). -/
theorem State.irq_finish (e : CmdEnd) (s : State) : (s.finish e).irq = s.irqEn := by
  simp [State.irq, (s.finish_ended e).2.1]

/-- Settles O38: a completion, of whatever kind, is a `finish`; the three writes that lower `irq` clear DONE or IRQ_EN. -/
theorem interruptFollowsCompletion : Obligations.InterruptFollowsCompletion := by
  refine ⟨State.irq_eq_true_iff, rfl, ?_, ?_, ?_⟩
  · intro i s t h
    rw [exec_next h, State.irq_finish]
  · exact fun s => ⟨s.irq_finish (.raise .illegalCommand), fun base n => s.irq_finish (.inconsistent base n)⟩
  · refine fun s t w hs => ⟨fun h hw => ?_, fun h hw => ?_, fun h hf hb => ?_⟩
    · rw [hostWriteReg_status hs, hw] at h
      cases h
      simp [State.irq]
    · rw [hostWriteReg_ctrl hs, hw] at h
      cases h
      simp [State.irq]
    · rw [hostWriteReg_cmd hs] at h
      cases h
      simp [State.irq, State.accept, hf, hb]

end Sys2Proof.Machine
end

section
/-! What a step can do, event by event: where it stops (10_state.md R36, 20_memory.md R60), what the core's turn and each write of the
window come to, and what a step does to STATUS (10_state.md R25 to R28). -/

namespace Sys2Proof.Machine

/-! ### Where a step stops -/

/-- The stop is a host byte access outside buffer memory (log 9). -/
def Event.Faults (e : Event) (s : State) (o : Host.Outcome State Fault Refusal) : Prop :=
  ∃ a, o = .fault (.hostOutsideMemory a) ∧ s.memSize ≤ a.toNat ∧ (e = .memRead a ∨ ∃ v, e = .memWrite a v)

/-- The stop is a window access that is no naturally aligned 32-bit access (10_state.md R36). -/
def Event.Refuses (e : Event) (out : Host.Outcome State Fault Refusal) : Prop :=
  ∃ n o, out = .refused (.windowAccess n o) ∧ (n ≠ 4 ∨ o.toNat % 4 ≠ 0) ∧ (e = .regRead n o ∨ ∃ w, e = .regWrite n o w)

theorem coreTurn_next (s : State) : ∃ t, coreTurn s = .next t := by
  rcases coreTurn_cases s with ⟨_, h⟩ | ⟨_, _, _, _, h⟩ | ⟨_, _, _, _, h⟩ <;> exact ⟨_, h⟩

theorem rstDeassert_next (s : State) : ∃ t, rstDeassert s = .next t := by
  unfold rstDeassert
  split <;> exact ⟨_, rfl⟩

theorem hostReadReg_goes_on {n : Nat} {o : BitVec 6} (h : regAt n o ≠ none) (s : State) : ∃ t, hostReadReg n o s = .next t := by
  obtain ⟨r, hr⟩ := Option.ne_none_iff_exists'.1 h
  cases hs : s.rst with
  | true => exact ⟨_, by simp only [hostReadReg, hr, hs]; rfl⟩
  | false => exact ⟨_, hostReadReg_of_regAt hr hs⟩

theorem hostWriteReg_goes_on {n : Nat} {o : BitVec 6} (h : regAt n o ≠ none) (w : Word) (s : State) :
    ∃ t, hostWriteReg n o w s = .next t := by
  obtain ⟨r, hr⟩ := Option.ne_none_iff_exists'.1 h
  cases hs : s.rst with
  | true => exact ⟨_, hostWriteReg_in_reset hr hs w⟩
  | false => exact ⟨_, hostWriteReg_of_regAt hr hs w⟩

theorem hostReadByte_goes_on {a : Word} {s : State} (h : ¬s.memSize ≤ a.toNat) : ∃ t, hostReadByte a s = .next t := by
  unfold hostReadByte
  rw [if_neg h]
  split <;> exact ⟨_, rfl⟩

theorem hostWriteByte_goes_on {a : Word} {s : State} (h : ¬s.memSize ≤ a.toNat) (v : Byte) : ∃ t, hostWriteByte a v s = .next t := by
  unfold hostWriteByte
  rw [if_neg h]
  split <;> exact ⟨_, rfl⟩

/-- A window access has a meaning exactly when it names a register. -/
theorem window_hasMeaning (n : Nat) (o : BitVec 6) : (n == 4 && o.toNat % 4 == 0) = true ↔ regAt n o ≠ none := by
  rw [← regAt_isSome, Option.isSome_iff_ne_none]

/-- An event that has a meaning goes on; one that has none stops in one of the two ways. -/
theorem happen_cases (e : Event) (s : State) :
    (e.hasMeaning s.memSize = true ∧ ∃ t, happen e s = .next t) ∨
      (e.hasMeaning s.memSize ≠ true ∧ (e.Faults s (happen e s) ∨ e.Refuses (happen e s))) := by
  cases e with
  | core => exact .inl ⟨rfl, coreTurn_next s⟩
  | rstAssert => exact .inl ⟨rfl, _, rfl⟩
  | rstDeassert => exact .inl ⟨rfl, rstDeassert_next s⟩
  | regRead n o =>
    by_cases hr : regAt n o = none
    · have hbad := regAt_eq_none.1 hr
      exact .inr ⟨mt (window_hasMeaning n o).1 (not_not_intro hr),
        .inr ⟨n, o, hostReadReg_refused hbad s, hbad, .inl rfl⟩⟩
    · exact .inl ⟨(window_hasMeaning n o).2 hr, hostReadReg_goes_on hr s⟩
  | regWrite n o w =>
    by_cases hr : regAt n o = none
    · have hbad := regAt_eq_none.1 hr
      exact .inr ⟨mt (window_hasMeaning n o).1 (not_not_intro hr),
        .inr ⟨n, o, hostWriteReg_refused hbad w s, hbad, .inr ⟨w, rfl⟩⟩⟩
    · exact .inl ⟨(window_hasMeaning n o).2 hr, hostWriteReg_goes_on hr w s⟩
  | memRead a =>
    by_cases ha : s.memSize ≤ a.toNat
    · exact .inr ⟨by simpa [Event.hasMeaning] using ha, .inl ⟨a, if_pos ha, ha, .inl rfl⟩⟩
    · exact .inl ⟨by simpa [Event.hasMeaning] using ha, hostReadByte_goes_on ha⟩
  | memWrite a v =>
    by_cases ha : s.memSize ≤ a.toNat
    · exact .inr ⟨by simpa [Event.hasMeaning] using ha, .inl ⟨a, if_pos ha, ha, .inr ⟨v, rfl⟩⟩⟩
    · exact .inl ⟨by simpa [Event.hasMeaning] using ha, hostWriteByte_goes_on ha v⟩

theorem step_of_nil {s : State} (h : s.inputs = []) : step s = coreTurn s.popped := by
  rw [step_nil h, State.popped_of_nil h]

theorem step_of_cons {s : State} {e : Event} {rest : List Event} (he : s.inputs = e :: rest) : step s = happen e s.popped := by
  rw [step_cons he, State.popped_of_cons he]

/-- A step goes on with no event pending or with one that has a meaning, and stops on the pending event otherwise. -/
theorem step_cases_of_head (s : State) :
    ((∀ e, s.inputs.head? = some e → e.hasMeaning s.memSize = true) ∧ ∃ t, step s = .next t) ∨
      ∃ e, s.inputs.head? = some e ∧ e.hasMeaning s.memSize ≠ true ∧ (e.Faults s (step s) ∨ e.Refuses (step s)) := by
  cases hin : s.inputs with
  | nil => exact .inl ⟨nofun, by rw [step_of_nil hin]; exact coreTurn_next _⟩
  | cons e rest =>
    rw [step_of_cons hin]
    rcases happen_cases e s.popped with ⟨hm, ht⟩ | ⟨hm, hstop⟩
    · exact .inl ⟨fun _ he => Option.some.inj he ▸ hm, ht⟩
    · exact .inr ⟨e, rfl, hm, hstop⟩

@[simp] theorem State.writeReg_memSize (s : State) (r : Reg) (w : Word) : (s.writeReg r w).memSize = s.memSize := by
  cases r <;> simp only [State.writeReg, State.accept] <;> split_ifs <;> rfl

@[simp] theorem State.writeReg_inputs (s : State) (r : Reg) (w : Word) : (s.writeReg r w).inputs = s.inputs := by
  cases r <;> simp only [State.writeReg, State.accept] <;> split_ifs <;> rfl

@[simp] theorem State.abandon_memSize (s : State) : s.abandon.memSize = s.memSize := by
  obtain ⟨m, k, h⟩ := s.abandon_eq
  rw [h]

@[simp] theorem State.abandon_inputs (s : State) : s.abandon.inputs = s.inputs := by
  obtain ⟨m, k, h⟩ := s.abandon_eq
  rw [h]

theorem step_inputs_memSize {s t : State} (h : step s = .next t) : t.inputs = s.inputs.tail ∧ t.memSize = s.memSize := by
  cases step_next_case h with
  | waits hc hi ht | runs hc hr hf i hd ht | rejects hc hr hf r hd ht => simp [ht]
  | regRead n o rest he hr v k ht | regWriteHeld n o w rest he hs ht | regWrite n o w rest he hs r hr ht => simp [ht]
  | memRead a rest he ha v k ht | memWriteApart a v rest he ha hf ht | memWriteInFlight a v rest he ha r hf ht => simp [ht]
  | rstAssert rest he ht | rstDeassert rest he hs ht | rstNoEdge rest he hs ht => simp [ht]

/-- Settles O58, from what the pending event does (`step_cases_of_head`). -/
theorem stepStopsOnlyOnHostAccess : Obligations.StepStopsOnlyOnHostAccess := by
  refine ⟨fun s => ?_, fun s f h => ?_, fun s r h => ?_, fun s t h => step_inputs_memSize h⟩
  · rcases step_cases_of_head s with ⟨hm, ht⟩ | ⟨e, he, hm, ⟨a, hstop, _⟩ | ⟨n, o, hstop, _⟩⟩
    · exact iff_of_true ht hm
    · exact iff_of_false (by simp [hstop]) fun hall => hm (hall e he)
    · exact iff_of_false (by simp [hstop]) fun hall => hm (hall e he)
  · rcases step_cases_of_head s with ⟨_, t, ht⟩ | ⟨e, he, _, ⟨a, hstop, hbad, hacc⟩ | ⟨n, o, hstop, _⟩⟩
    · simp [ht] at h
    · cases hstop.symm.trans h
      exact ⟨a, rfl, hbad, by simpa [he] using hacc⟩
    · simp [hstop] at h
  · rcases step_cases_of_head s with ⟨_, t, ht⟩ | ⟨e, he, _, ⟨a, hstop, _⟩ | ⟨n, o, hstop, hbad, hacc⟩⟩
    · simp [ht] at h
    · simp [hstop] at h
    · cases hstop.symm.trans h
      exact ⟨n, o, rfl, hbad, by simpa [he] using hacc⟩

/-! ### The core's turn, and the writes of STATUS and CMD -/

theorem State.CoreNext.eq_core {s : State} (hc : s.CoreNext) {e : Event} {rest : List Event} (he : s.inputs = e :: rest) :
    e = .core := by
  simpa [State.CoreNext, he] using hc

theorem State.not_coreNext_of_cons {s : State} {e : Event} {rest : List Event} (he : s.inputs = e :: rest) (hne : e ≠ .core) :
    ¬s.CoreNext :=
  fun hc => hne (hc.eq_core he)

theorem step_of_coreNext {s : State} (hc : s.CoreNext) : step s = coreTurn s.popped := by
  cases hin : s.inputs with
  | nil => exact step_of_nil hin
  | cons e rest =>
    obtain rfl := hc.eq_core hin
    exact step_of_cons hin

/-- The core's turn with a command in flight runs its word. -/
theorem step_of_busy {s : State} (h : s.Inv) (hb : s.busy = true) (hc : s.CoreNext) : step s = runWord s.curCmd s.popped := by
  have hf : s.inFlight = true := h.inFlight_eq_busy.trans hb
  rw [step_of_coreNext hc]
  simp [coreTurn, h.rst_of_busy hb, hf]

/-- A host write of the window with `rst` low writes the register it names. -/
theorem step_regWrite {s t : State} {n : Nat} {o : BitVec 6} {w : Word} {rest : List Event} {r : Reg}
    (he : s.inputs = .regWrite n o w :: rest) (hr : regAt n o = some r) (hs : s.rst = false) (hstep : step s = .next t) :
    t = s.popped.writeReg r w := by
  rw [step_of_cons he, happen, hostWriteReg_of_regAt (s := s.popped) hr hs] at hstep
  injection hstep with ht
  exact ht.symm

/-- A host write of the window while `rst` is asserted has no effect. -/
theorem step_regWrite_held {s t : State} {n : Nat} {o : BitVec 6} {w : Word} {rest : List Event}
    (he : s.inputs = .regWrite n o w :: rest) (hs : s.rst = true) (hstep : step s = .next t) : t = s.popped := by
  rw [step_of_cons he] at hstep
  obtain ⟨r, _, ⟨_, ht⟩ | ⟨hs', _⟩⟩ := hostWriteReg_next hstep
  · exact ht
  · simp [hs] at hs'

theorem step_statusWrite {s t : State} (h : s.Inv) {w : Word} {rest : List Event} (he : s.inputs = .regWrite 4 0x08 w :: rest)
    (hstep : step s = .next t) : t.done = (s.done && !w.getLsbD 1) := by
  cases hs : s.rst with
  | true => simp [step_regWrite_held he hs hstep, (h.held_at_reset hs).done]
  | false => rw [step_regWrite (r := .status) he rfl hs hstep, State.writeReg_status, State.popped_done]

theorem step_cmdWrite {s t : State} {w : Word} {rest : List Event} (he : s.inputs = .regWrite 4 0x0C w :: rest)
    (hs : s.rst = false) (hstep : step s = .next t) : t = s.popped.accept w :=
  step_regWrite (r := .cmd) he rfl hs hstep

theorem step_rstAssert {s t : State} {rest : List Event} (he : s.inputs = .rstAssert :: rest) (hstep : step s = .next t) :
    t.AtReset := by
  rw [step_of_cons he] at hstep
  cases hstep
  exact State.atReset_of_rst _ true

theorem State.accept_of_fatal {s : State} (hf : s.fatal = true) (w : Word) : s.accept w = s := by simp [State.accept, hf]

theorem State.accept_busy {s : State} (hf : s.fatal = false) (w : Word) : (s.accept w).busy = true := by
  rcases s.accept_cases w with ⟨hf', _⟩ | ⟨_, hb, ha⟩ | ⟨_, _, ha⟩
  · simp [hf] at hf'
  · rw [ha, hb]
  · rw [ha, State.latch_busy]

/-! ### What a step does to STATUS, said once -/

/-- STATUS reads the same. -/
structure SameStatus (s t : State) : Prop where
  busy : t.busy = s.busy
  done : t.done = s.done
  fatal : t.fatal = s.fatal
  err : t.err = s.err

theorem SameStatus.refl (s : State) : SameStatus s s := ⟨rfl, rfl, rfl, rfl⟩

/-- What a command in flight was given, and the previous RESULT, are the same. -/
structure SameOperands (s t : State) : Prop where
  arg : t.arg = s.arg
  src : t.src = s.src
  dst : t.dst = s.dst
  len : t.len = s.len
  curCmd : t.curCmd = s.curCmd
  result : t.result = s.result

theorem SameOperands.refl (s : State) : SameOperands s s := ⟨rfl, rfl, rfl, rfl, rfl, rfl⟩

/-- The five things a step from a state of the invariant can do to STATUS. -/
inductive StatusCase (s t : State) : Prop where
  /-- The command in flight ended. -/
  | ended (hb : s.busy = true) (hc : s.CoreNext) (hbusy : t.busy = false) (hdone : t.done = true)
  /-- A command was accepted. -/
  | accepted (w : Word) (rest : List Event) (he : s.inputs = .regWrite 4 0x0C w :: rest) (hs : s.rst = false)
      (hf : s.fatal = false) (hb : s.busy = false) (ht : t = s.popped.latch w)
  /-- The host cleared DONE. -/
  | acknowledged (w : Word) (rest : List Event) (he : s.inputs = .regWrite 4 0x08 w :: rest) (hw : w.getLsbD 1 = true)
      (ht : t = { s.popped with done := false })
  /-- `rst` was asserted. -/
  | reset (rest : List Event) (he : s.inputs = .rstAssert :: rest) (ht : t.AtReset)
  /-- Nothing; a command in flight keeps its operands. -/
  | unchanged (hc : s.busy = true → ¬s.CoreNext) (hst : SameStatus s t) (hop : s.busy = true → SameOperands s t)

/-- A host write of the window that neither starts a command nor clears DONE leaves STATUS, and a command in flight, as they are. -/
theorem State.writeReg_unchanged (s : State) (r : Reg) (w : Word) (hcmd : r = .cmd → s.accept w = s)
    (hack : r = .status → w.getLsbD 1 = false) :
    SameStatus s (s.writeReg r w) ∧ (s.busy = true → SameOperands s (s.writeReg r w)) := by
  cases r with
  | id | result | reserved => exact ⟨.refl s, fun _ => .refl s⟩
  | ctrl => exact ⟨⟨rfl, rfl, rfl, rfl⟩, fun _ => ⟨rfl, rfl, rfl, rfl, rfl, rfl⟩⟩
  | status =>
    rw [State.writeReg_status, hack rfl]
    exact ⟨⟨rfl, Bool.and_true _, rfl, rfl⟩, fun _ => ⟨rfl, rfl, rfl, rfl, rfl, rfl⟩⟩
  | cmd =>
    rw [State.writeReg, hcmd rfl]
    exact ⟨.refl s, fun _ => .refl s⟩
  | arg | src | dst | len =>
    simp only [State.writeReg]
    split
    next => exact ⟨.refl s, fun _ => .refl s⟩
    next hidle => exact ⟨⟨rfl, rfl, rfl, rfl⟩, fun hb => absurd hb hidle⟩

/-- A host write of the window with `rst` low is an acceptance, an acknowledgement, or leaves STATUS alone. -/
theorem regWrite_status_case {s : State} {n : Nat} {o : BitVec 6} {w : Word} {rest : List Event} {r : Reg}
    (he : s.inputs = .regWrite n o w :: rest) (hs : s.rst = false) (hr : regAt n o = some r) :
    StatusCase s (s.popped.writeReg r w) := by
  by_cases hacc : r = .cmd ∧ s.fatal = false ∧ s.busy = false
  · obtain ⟨rfl, hf, hb⟩ := hacc
    obtain ⟨rfl, rfl⟩ := (regAt_eq_some (r := .cmd) nofun).1 hr
    exact .accepted w rest he hs hf hb (by simp [State.writeReg, State.accept, hf, hb])
  by_cases hack : r = .status ∧ w.getLsbD 1 = true
  · obtain ⟨rfl, hw⟩ := hack
    obtain ⟨rfl, rfl⟩ := (regAt_eq_some (r := .status) nofun).1 hr
    exact .acknowledged w rest he hw (if_pos hw)
  have hcmd (hr' : r = .cmd) : s.popped.accept w = s.popped := by
    rcases s.popped.accept_cases w with ⟨_, ha⟩ | ⟨_, _, ha⟩ | ⟨hf, hb, _⟩
    · exact ha
    · exact ha
    · exact absurd ⟨hr', hf, hb⟩ hacc
  have hstatus (hr' : r = .status) : w.getLsbD 1 = false := Bool.eq_false_iff.2 fun hw => hack ⟨hr', hw⟩
  obtain ⟨⟨hbusy, hdone, hfatal, herr⟩, hop⟩ := s.popped.writeReg_unchanged r w hcmd hstatus
  refine .unchanged (fun _ => State.not_coreNext_of_cons he nofun) ⟨hbusy, hdone, hfatal, herr⟩ fun hb => ?_
  obtain ⟨harg, hsrc, hdst, hlen, hcur, hres⟩ := hop hb
  exact ⟨harg, hsrc, hdst, hlen, hcur, hres⟩

/-- A step from a state of the invariant does one of the five things to STATUS. -/
theorem step_status_case {s t : State} (h : s.Inv) (hstep : step s = .next t) : StatusCase s t := by
  have hbusy (hf : s.inFlight = true) : s.busy = true := h.inFlight_eq_busy ▸ hf
  cases step_next_case hstep with
  | waits hc hi ht =>
    subst ht
    refine .unchanged (fun hb => ?_) ⟨rfl, rfl, rfl, rfl⟩ fun _ => ⟨rfl, rfl, rfl, rfl, rfl, rfl⟩
    simp [h.rst_of_busy hb, h.inFlight_eq_busy, hb] at hi
  | runs hc hr hf i hd ht =>
    obtain ⟨hb, hdone, _⟩ := s.popped.finish_ended (planOf i s.popped)
    exact .ended (hbusy hf) hc (ht ▸ hb) (ht ▸ hdone)
  | rejects hc hr hf r hd ht => exact .ended (hbusy hf) hc (ht ▸ rfl) (ht ▸ rfl)
  | regWrite n o w rest he hs r hr ht => exact ht ▸ regWrite_status_case he hs hr
  | rstAssert rest he ht => exact .reset rest he (ht ▸ State.atReset_of_rst _ true)
  | rstDeassert rest he hs ht =>
    obtain ⟨_, hb, hdone, hfatal, herr⟩ := h.held_at_reset hs
    subst ht
    exact .unchanged (fun _ => State.not_coreNext_of_cons he nofun) ⟨hb.symm, hdone.symm, hfatal.symm, herr.symm⟩
      fun hb' => by simp [hb] at hb'
  | regRead n o rest he hr v k ht | regWriteHeld n o w rest he hs ht | memRead a rest he ha v k ht
  | memWriteApart a v rest he ha hf ht | memWriteInFlight a v rest he ha r hf ht | rstNoEdge rest he hs ht =>
    subst ht
    exact .unchanged (fun _ => State.not_coreNext_of_cons he nofun) ⟨rfl, rfl, rfl, rfl⟩
      fun _ => ⟨rfl, rfl, rfl, rfl, rfl, rfl⟩

/-! ### The rules of STATUS -/

/-- Settles O39: BUSY rises with an acceptance and falls with an end or a reset, in no other case of `StatusCase`. -/
theorem busyFromAcceptanceToCompletion : Obligations.BusyFromAcceptanceToCompletion := by
  intro s t h hstep
  refine ⟨fun w rest he hs hf => ?_, ?_⟩
  · rw [step_cmdWrite he hs hstep]
    exact State.accept_busy (s := s.popped) hf w
  cases step_status_case h hstep with
  | ended hb hc hbusy hdone =>
    exact ⟨fun hb' => by simp [hb] at hb', fun _ _ => hbusy, fun _ _ => .inl hc⟩
  | accepted w rest he hs hf hb ht =>
    subst ht
    exact ⟨fun _ _ => ⟨w, rest, he, hs, hf, rfl⟩, fun hb' => by simp [hb] at hb', nofun⟩
  | acknowledged w rest he hw ht =>
    subst ht
    exact ⟨fun hb hb' => by simp [hb] at hb', fun _ hc => absurd hc (State.not_coreNext_of_cons he nofun),
      fun hb hb' => by simp [hb] at hb'⟩
  | reset rest he ht =>
    exact ⟨fun _ hb' => by simp [ht.busy] at hb', fun _ _ => ht.busy, fun _ _ => .inr ⟨rest, he⟩⟩
  | unchanged hc hst hop =>
    exact ⟨fun hb hb' => by simp [hst.busy, hb] at hb', fun hb hc' => absurd hc' (hc hb),
      fun hb hb' => by simp [hst.busy, hb] at hb'⟩

/-- Settles O40: DONE rises with the end of a command and falls in the three ways of `StatusCase`. -/
theorem doneIsSticky : Obligations.DoneIsSticky := by
  intro s t h hstep
  have hwrite (w rest) (he : s.inputs = .regWrite 4 0x08 w :: rest) : t.done = (s.done && !w.getLsbD 1) :=
    step_statusWrite h he hstep
  cases step_status_case h hstep with
  | ended hb hc hbusy hdone =>
    exact ⟨fun _ _ => hdone, fun _ _ => ⟨hb, hc⟩, hwrite, fun hb' => by simp [hb] at hb', fun _ hd => by simp [hdone] at hd⟩
  | accepted w rest he hs hf hb ht =>
    subst ht
    exact ⟨fun hb' => by simp [hb] at hb', nofun, hwrite, fun _ _ => rfl, fun _ _ => .inr (.inl rfl)⟩
  | acknowledged w rest he hw ht =>
    have hbusy : t.busy = s.busy := by rw [ht]; rfl
    have hdone : t.done = false := by rw [ht]
    exact ⟨fun _ hc => absurd hc (State.not_coreNext_of_cons he nofun), fun _ hd => by simp [hdone] at hd, hwrite,
      fun _ _ => hdone, fun _ _ => .inl ⟨w, rest, he, hw⟩⟩
  | reset rest he ht =>
    exact ⟨fun _ hc => absurd hc (State.not_coreNext_of_cons he nofun), fun _ hd => by simp [ht.done] at hd, hwrite,
      fun _ _ => ht.done, fun _ _ => .inr (.inr ⟨rest, he⟩)⟩
  | unchanged hc hst hop =>
    exact ⟨fun hb hc' => absurd hc' (hc hb), fun hd hd' => by simp [hst.done, hd] at hd', hwrite,
      fun hb hb' => by simp [hst.busy, hb] at hb', fun hd hd' => by simp [hst.done, hd] at hd'⟩

/-- FATAL falls in no step but the assertion of `rst`. -/
theorem rstAssert_of_fatal_cleared {s t : State} (h : s.Inv) (hstep : step s = .next t) (hf : s.fatal = true)
    (hf' : t.fatal = false) : ∃ rest, s.inputs = .rstAssert :: rest := by
  cases step_status_case h hstep with
  | ended hb hc hbusy hdone => simp [h.not_busy_of_fatal hf] at hb
  | accepted w rest he hs hfatal hb ht => simp [hf] at hfatal
  | acknowledged w rest he hw ht => simp [ht, hf] at hf'
  | reset rest he ht => exact ⟨rest, he⟩
  | unchanged hc hst hop => simp [hst.fatal, hf] at hf'

/-- Settles O41: no case of `StatusCase` but a reset clears FATAL, and `accept` does nothing while it is set. -/
theorem fatalUntilReset : Obligations.FatalUntilReset := by
  refine ⟨State.raiseInconsistent_fatal, fun s t h hstep hf => ⟨⟨rstAssert_of_fatal_cleared h hstep hf, ?_⟩, ?_⟩⟩
  · rintro ⟨rest, he⟩
    exact (step_rstAssert he hstep).fatal
  · intro w rest he
    rw [← State.popped_of_cons he]
    cases hs : s.rst with
    | true => exact step_regWrite_held he hs hstep
    | false => exact (step_cmdWrite he hs hstep).trans (State.accept_of_fatal (s := s.popped) hf w)

/-- Settles O42: ERR changes only in the cases of `StatusCase` that are an acceptance, an end or a reset. -/
theorem errOfLastCommand : Obligations.ErrOfLastCommand := by
  intro s t h hstep
  have hend (hb : s.busy = true) (hc : s.CoreNext) :
      (∀ i, decodeCmd s.curCmd = .ok i → exec i s.popped = .next t) ∧
        ∀ r, decodeCmd s.curCmd = .error r → t.err = 3 := by
    rw [step_of_busy h hb hc] at hstep
    refine ⟨fun i hd => (runWord_ok hd _).symm.trans hstep, fun r hd => ?_⟩
    rw [runWord_error hd] at hstep
    cases hstep
    rfl
  cases step_status_case h hstep with
  | ended hb hc hbusy hdone =>
    exact ⟨fun hb' => by simp [hb] at hb', hend, fun _ _ _ _ he => absurd hc (State.not_coreNext_of_cons he nofun),
      fun _ => .inr (.inl ⟨hb, hc⟩)⟩
  | accepted w rest he hs hf hb ht =>
    subst ht
    exact ⟨fun _ _ => rfl, hend, fun _ _ _ _ _ hb' => by simp [hb] at hb', fun _ => .inl ⟨hb, rfl⟩⟩
  | acknowledged w rest he hw ht =>
    subst ht
    exact ⟨fun hb hb' => by simp [hb] at hb', hend, fun _ _ _ _ _ _ => rfl, fun he => absurd rfl he⟩
  | reset rest he ht =>
    exact ⟨fun _ _ => ht.err, hend, fun _ _ _ _ he' => by simp [he] at he', fun _ => .inr (.inr ⟨rest, he⟩)⟩
  | unchanged hc hst hop =>
    exact ⟨fun hb hb' => by simp [hst.busy, hb] at hb', hend, fun _ _ _ _ _ _ => hst.err, fun he => absurd hst.err he⟩

/-- Settles O43: a step that leaves a command in flight is an acknowledgement or leaves STATUS alone. -/
theorem operandsLockedWhileBusy : Obligations.OperandsLockedWhileBusy := by
  intro s t h hstep hb hb'
  cases step_status_case h hstep with
  | ended _ hc hbusy hdone => simp [hbusy] at hb'
  | accepted w rest he hs hf hidle ht => simp [hb] at hidle
  | acknowledged w rest he hw ht => simp [ht]
  | reset rest he ht => simp [ht.busy] at hb'
  | unchanged hc hst hop =>
    obtain ⟨harg, hsrc, hdst, hlen, hcur, hres⟩ := hop hb
    exact ⟨harg, hsrc, hdst, hlen, hcur, hres⟩

end Sys2Proof.Machine
end

section
/-! The command in flight and the host's byte accesses: what a memory command leaves unchanged, what the end of a command depends on,
and what a host access inside or outside its ranges comes to (20_memory.md R60, R69, R72 to R74; 93_implementation_defined.md U7 to
U9, U11). -/

namespace Sys2Proof.Machine

/-! ### The frame of a memory command -/

/-- A memory command ends with an error, or completes with the n bytes of its output range; the length postcondition holds. -/
theorem planOf_memory {i : Instr} {s : State} {m n : Nat} (hi : commandSizes i s.len.toNat = some (m, n)) :
    (∃ c, planOf i s = .raise c) ∨
      ∃ out, out.length = n ∧ planOf i s = .complete (some (toReg n)) s.dst.toNat out := by
  by_cases h : s.RangesPass m n
  · rcases planOf_pass hi h with ⟨out, hp, hl⟩ | ⟨_, _, hp⟩
    · exact .inr ⟨out, hl, hp⟩
    · exact .inl ⟨_, hp⟩
  · exact .inl ⟨_, planOf_bad hi h⟩

theorem State.finish_complete_around (r : Option Word) (base : Nat) (out : List Byte) (s : State) :
    SameAround s (s.finish (.complete r base out)) :=
  ⟨rfl, rfl, rfl, rfl, rfl, rfl, rfl, rfl, rfl, rfl⟩

theorem State.finish_complete_outside (r : Option Word) (base : Nat) (out : List Byte) (s : State) :
    SameBytesOutside base out.length s (s.finish (.complete r base out)) := by
  intro a ha
  exact Memory.read_writeBytes_outside _ _ (by rwa [State.length_settle])

/-- Settles O28: an error changes STATUS alone, a completion writes n bytes from DST on. -/
theorem memoryCommandFrame : Obligations.MemoryCommandFrame := by
  intro i s t m n hi h
  rw [exec_next h]
  rcases planOf_memory hi with ⟨c, hp⟩ | ⟨out, hl, hp⟩ <;> rw [hp]
  · obtain ⟨_, haround, hresult, hmem⟩ := s.raise_refused c
    exact ⟨haround, fun a _ => congrArg (Memory.read · a) hmem, fun _ => ⟨hresult, hmem⟩⟩
  · subst hl
    exact ⟨s.finish_complete_around _ _ _, s.finish_complete_outside _ _ _, fun herr => absurd rfl herr⟩

/-! ### What the end of a command depends on -/

/-- The input bytes of the command, as s has its ranges, read the same in s'. -/
def SameInput (i : Instr) (s s' : State) : Prop :=
  ∀ m n, commandSizes i s.len.toNat = some (m, n) →
    ∀ a, s.src.toNat ≤ a → a < s.src.toNat + m → s'.mem.read a = s.mem.read a

/-- Two memories that agree on a range hold the same containers there. -/
theorem Memory.readContainers_congr {m m' : Memory} : ∀ {n base : Nat},
    (∀ a, base ≤ a → a < base + 2 * n → m.read a = m'.read a) → m.readContainers base n = m'.readContainers base n
  | 0, _, _ => rfl
  | n + 1, base, h => by
    simp only [Memory.readContainers]
    rw [h base (by omega) (by omega), h (base + 1) (by omega) (by omega),
      Memory.readContainers_congr fun a h1 h2 => h a (by omega) (by omega)]

/-- PACK's validation pass, when the host left the input alone. -/
theorem packRefuses_of_input_kept {s : State} (ht : s.inputTampered = false) :
    packRefuses s = (packContainers s).any Container.tooWide := by
  simp [packRefuses, ht]

section
variable {s s' : State} (h : SameAround s s')
include h

/-- The checks read nothing but the operand registers and MEM_SIZE. -/
theorem SameAround.rangesPass_iff (m n : Nat) : s'.RangesPass m n ↔ s.RangesPass m n := by
  constructor <;> rintro ⟨hm, hn, hsrc, hdst, hapart⟩
  · exact ⟨hm, hn, by rwa [← h.memSize, ← h.src], by rwa [← h.memSize, ← h.dst], by rwa [← h.src, ← h.dst]⟩
  · exact ⟨hm, hn, by rwa [h.memSize, h.src], by rwa [h.memSize, h.dst], by rwa [h.src, h.dst]⟩

/-- The end of a command whose input the host left alone is fixed by the registers and the input bytes. -/
theorem planOf_congr {i : Instr} (hb : SameInput i s s') (ht : s.inputTampered = false) (ht' : s'.inputTampered = false) :
    planOf i s' = planOf i s := by
  cases hi : commandSizes i s.len.toNat with
  | none =>
    cases i <;> simp only [commandSizes, reduceCtorEq] at hi <;>
      simp only [planOf, planNop, planEncSym, planDecSym, planEncLen, h.arg, h.len]
  | some sizes =>
    obtain ⟨m, n⟩ := sizes
    have hbytes := hb m n hi
    have hi' : commandSizes i s'.len.toNat = some (m, n) := by rw [h.len, hi]
    by_cases hp : s.RangesPass m n
    · have hp' := (h.rangesPass_iff m n).2 hp
      cases i <;> simp only [commandSizes, reduceCtorEq, Option.some.injEq, Prod.mk.injEq] at hi <;> obtain ⟨rfl, rfl⟩ := hi
      all_goals rw [← h.len] at hp'
      case encMsg =>
        simp only [planOf, planEncMsg_pass hp, planEncMsg_pass hp', h.len, h.src, h.dst,
          Memory.readBytes_congr hbytes]
      case decMsg =>
        simp only [planOf, planDecMsg_pass hp, planDecMsg_pass hp', h.len, h.src, h.dst,
          Memory.readBytes_congr hbytes]
      case pack =>
        simp only [planOf, planPack_pass hp, planPack_pass hp', packRefuses_of_input_kept ht, packRefuses_of_input_kept ht',
          packContainers, h.len, h.src, h.dst, Memory.readContainers_congr hbytes]
      case unpack =>
        simp only [planOf, planUnpack_pass hp, planUnpack_pass hp', h.len, h.src, h.dst,
          Memory.readBytes_congr hbytes]
    · rw [planOf_bad hi hp, planOf_bad hi' (mt (h.rangesPass_iff m n).1 hp)]

end

/-- Settles O55: the end is fixed by registers and input bytes (`planOf_congr`), and an untouched output draws no free value. -/
theorem freeValuesDoNotShow : Obligations.FreeValuesDoNotShow := by
  intro i s t t' k w hu h h'
  have hplan : planOf i { s with draws := k, curCmd := w } = planOf i s :=
    planOf_congr (s := s) (s' := { s with draws := k, curCmd := w }) ⟨rfl, rfl, rfl, rfl, rfl, rfl, rfl, rfl, rfl, rfl⟩
      (fun _ _ _ _ _ _ => rfl) hu.input hu.input
  have hu' : ({ s with draws := k, curCmd := w } : State).Untouched := ⟨hu.input, hu.output⟩
  rw [exec_next h, exec_next h', hplan]
  rcases planOf_cases i s with ⟨c, hp⟩ | ⟨r, hp⟩ | ⟨m, n, out, _, _, _, hp⟩ <;> rw [hp]
  · rfl
  · rfl
  · simp only [State.finish, State.settle_of_untouched hu, State.settle_of_untouched hu']
    rfl

/-! ### The output bytes of the command in flight -/

theorem Memory.read_writeBytes_of_getElem? {m : Memory} {base a : Nat} {vs : List Byte} {v : Byte} (hw : m.wf = true)
    (ha : base ≤ a) (hv : vs[a - base]? = some v) : (m.writeBytes base vs).read a = v := by
  obtain ⟨hlt, hv⟩ := List.getElem?_eq_some_iff.1 hv
  have hread := Memory.read_writeBytes_inside (base := base) vs hlt hw
  rwa [Nat.add_sub_cancel' ha, hv] at hread

/-- The byte the command in flight writes at an address is what the address holds when the command has ended. -/
theorem State.read_finish_of_flightByte {s : State} {i : Instr} {a : Nat} {v : Byte} (hw : s.mem.wf = true)
    (hf : s.flight = some i) (h : s.flightByte a = some v) : (s.finish (planOf i s)).mem.read a = v := by
  cases hp : planOf i s <;> simp only [State.flightByte, State.flightOutput, hf, hp, reduceCtorEq] at h
  case complete r base out =>
    split_ifs at h with ha
    exact Memory.read_writeBytes_of_getElem? hw ha h
  case inconsistent base size =>
    split_ifs at h with ha
    exact Memory.read_writeBytes_of_getElem? hw ha h

theorem State.flightByte_of_flight_none {s : State} (h : s.flight = none) (a : Nat) : s.flightByte a = none := by
  simp [State.flightByte, State.flightOutput, h]

/-! ### The command in flight once the oldest event is used up -/

theorem planOf_popped (i : Instr) (s : State) : planOf i s.popped = planOf i s := by cases i <;> rfl

theorem State.settle_popped (s : State) : ∀ (vs : List Byte) (base : Nat), s.popped.settle base vs = s.settle base vs
  | [], _ => rfl
  | v :: vs, base => congrArg (s.settleByte base v :: ·) (State.settle_popped s vs (base + 1))

theorem State.freeBytes_popped (s : State) : ∀ n base : Nat, s.popped.freeBytes base n = s.freeBytes base n
  | 0, _ => rfl
  | n + 1, base => congrArg (Config.freeByte s.draws base :: ·) (State.freeBytes_popped s n (base + 1))

/-- A command ends the same, whatever events stand after it. -/
theorem State.finish_popped (e : CmdEnd) (s : State) : s.popped.finish e = (s.finish e).popped := by
  cases e with
  | complete r base out =>
    simp only [State.finish, State.settle_popped]
    rfl
  | raise c => rfl
  | inconsistent base n =>
    simp only [State.finish, State.raiseInconsistent, State.freeBytes_popped]
    rfl

theorem State.flightRanges_popped (s : State) : s.popped.flightRanges = s.flightRanges := by
  have h (i : Instr) : rangesOf i s.popped = rangesOf i s := by cases i <;> rfl
  simp only [State.flightRanges, h]
  rfl

/-! ### A host read of a byte -/

/-- A command word is at most 7 (30_encoding.md R82). -/
theorem toNat_le_of_decodeCmd {w : Word} {i : Instr} (h : decodeCmd w = .ok i) : w.toNat ≤ 7 := by
  unfold decodeCmd at h
  split_ifs at h with hrsvd
  have hhigh : w.toNat / 16 % 2 ^ 28 = 0 := by
    simpa [cmdRsvd, Nat.shiftRight_eq_div_pow] using congrArg BitVec.toNat (not_not.1 hrsvd)
  have hlow : (cmdOp w).toNat = w.toNat % 16 := by simp [cmdOp]
  have hw := w.isLt
  split at h
  case h_9 => cases h
  all_goals omega

/-- An idle core and an illegal word in flight are no command. -/
theorem State.flight_eq_none {s : State} (h : s.inFlight = false ∨ 8 ≤ s.curCmd.toNat) : s.flight = none := by
  rcases h with h | h
  · simp [State.flight, h]
  · cases hd : decodeCmd s.curCmd with
    | ok i => exact absurd (toNat_le_of_decodeCmd hd) (by omega)
    | error r => simp [State.flight, hd, Except.toOption]

theorem hostReadByte_of_flightByte_none {a : Word} {s : State} (ha : a.toNat < s.memSize)
    (h : s.flightByte a.toNat = none) :
    hostReadByte a s = .next { s with lastRead := some (.byte a (s.mem.read a.toNat)) } := by
  simp [hostReadByte, h, Nat.not_le.2 ha]

theorem hostReadByte_of_flightByte_some {a : Word} {s : State} {v : Byte} (ha : a.toNat < s.memSize)
    (h : s.flightByte a.toNat = some v) :
    hostReadByte a s = .next { s with
      lastRead := some (.byte a (if Config.freePick s.draws a.toNat then v else s.mem.read a.toNat)),
      draws := s.draws + 1 } := by
  simp [hostReadByte, h, Nat.not_le.2 ha]

/-- Settles O50: the reply is the byte, or one of the byte and what the command in flight writes there. -/
theorem hostReadsOldOrNewByte : Obligations.HostReadsOldOrNewByte := by
  intro s a rest hw _ he ha
  rw [step_of_cons he, happen]
  refine ⟨fun hidle => ?_, fun i u hf hd hu => ?_⟩
  · have hnone : s.popped.flight = none := State.flight_eq_none hidle
    rw [hostReadByte_of_flightByte_none (s := s.popped) ha (State.flightByte_of_flight_none hnone _), State.popped_of_cons he]
  · have hflight : s.popped.flight = some i := flight_of_decode hf hd
    cases hv : s.popped.flightByte a.toNat with
    | none =>
      rw [hostReadByte_of_flightByte_none (s := s.popped) ha hv, State.popped_of_cons he]
      exact ⟨_, _, rfl, rfl, .inl rfl, rfl⟩
    | some v =>
      have hnew : u.mem.read a.toNat = v := by
        have hread := State.read_finish_of_flightByte (s := s.popped) hw hflight hv
        rwa [planOf_popped, State.finish_popped, ← exec_next hu] at hread
      rw [hostReadByte_of_flightByte_some (s := s.popped) ha hv, State.popped_of_cons he]
      refine ⟨_, _, rfl, rfl, ?_, rfl⟩
      split
      · exact .inr hnew.symm
      · exact .inl rfl

/-! ### A host write of a byte -/

/-- The state after a host write of v at address a, with the record of breaches it leaves (log 8). -/
def State.hostWritten (s : State) (a : Nat) (v : Byte) (tampered : Bool) (written : List Nat) : State :=
  { s with mem := s.mem.write a v, inputTampered := tampered, hostWrote := written }

theorem State.hostWritten_around (s : State) (a : Nat) (v : Byte) (b : Bool) (ws : List Nat) :
    SameAround s (s.hostWritten a v b ws) :=
  ⟨rfl, rfl, rfl, rfl, rfl, rfl, rfl, rfl, rfl, rfl⟩

/-- The ranges in flight are those of the command whose word is in flight. -/
theorem State.flightRanges_eq_some {s : State} {r : Ranges} :
    s.flightRanges = some r ↔ s.inFlight = true ∧ ∃ i m n, decodeCmd s.curCmd = .ok i ∧
      commandSizes i s.len.toNat = some (m, n) ∧ s.RangesPass m n ∧ r = ⟨s.src.toNat, m, s.dst.toNat, n⟩ := by
  cases hf : s.inFlight with
  | false => simp [State.flightRanges, State.flight, hf]
  | true =>
    cases hd : decodeCmd s.curCmd with
    | error e => simp [State.flightRanges, State.flight, hd, Except.toOption]
    | ok i => simp [State.flightRanges, flight_of_decode hf hd, rangesOf_eq_some]

theorem State.flightRanges_eq_none {s : State} :
    s.flightRanges = none ↔ s.inFlight = false ∨
      ∀ i m n, decodeCmd s.curCmd = .ok i → commandSizes i s.len.toNat = some (m, n) → ¬s.RangesPass m n := by
  constructor
  · intro hnone
    rw [or_iff_not_imp_left, Bool.not_eq_false]
    intro hf i m n hd hi hp
    have hsome := State.flightRanges_eq_some.2 ⟨hf, i, m, n, hd, hi, hp, rfl⟩
    simp [hnone] at hsome
  · intro h
    rw [Option.eq_none_iff_forall_not_mem]
    intro r hr
    obtain ⟨hf, i, m, n, hd, hi, hp, _⟩ := State.flightRanges_eq_some.1 hr
    rcases h with hidle | hfail
    · simp [hf] at hidle
    · exact hfail i m n hd hi hp

section
variable {i : Instr} {s s' : State} {a : Nat} {v : Byte} {m n : Nat}

/-- A first host write while a memory command with the ranges [SRC, SRC + m) and [DST, DST + n) is in flight. -/
theorem hostWriteByte_in_flight {a : Word} (hu : s.Untouched) (hf : s.inFlight = true) (hd : decodeCmd s.curCmd = .ok i)
    (hi : commandSizes i s.len.toNat = some (m, n)) (hp : s.RangesPass m n) (h : hostWriteByte a v s = .next s') :
    s' = s.hostWritten a.toNat v (decide (s.src.toNat ≤ a.toNat ∧ a.toNat < s.src.toNat + m))
      (if s.dst.toNat ≤ a.toNat ∧ a.toNat < s.dst.toNat + n then [a.toNat] else []) := by
  have hr := State.flightRanges_eq_some.2 ⟨hf, i, m, n, hd, hi, hp, rfl⟩
  obtain ⟨_, ⟨hnone, _⟩ | ⟨r, hr', ht⟩⟩ := hostWriteByte_next h
  · simp [hnone] at hr
  · obtain rfl := Option.some.inj (hr.symm.trans hr')
    simp [ht, State.hostWritten, hu.input, hu.output, Ranges.inputHas, Ranges.outputHas]

/-- Two ends of a command that leave every byte but that at address a, RESULT and ERR the same. -/
structure SameEndBut (a : Nat) (u u' : State) : Prop where
  bytes : ∀ b, b ≠ a → u'.mem.read b = u.mem.read b
  result : u'.result = u.result
  err : u'.err = u.err

theorem State.settleByte_of_not_written {b : Nat} (ht : s.inputTampered = false) (hb : b ∉ s.hostWrote) (x : Byte) :
    s.settleByte b x = x := by
  simp [State.settleByte, ht, hb]

/-- With the input kept, an output byte ends as the command's value or stays as the host left it (20_memory.md R73, U9). -/
theorem State.settleByte_cases (ht : s.inputTampered = false) (b : Nat) (x : Byte) :
    s.settleByte b x = s.mem.read b ∨ s.settleByte b x = x := by
  rw [State.settleByte, ht, if_neg Bool.false_ne_true]
  split_ifs
  · exact .inr rfl
  · exact .inl rfl
  · exact .inr rfl

theorem State.getElem_settle (s : State) : ∀ (vs : List Byte) (base j : Nat) (hj : j < vs.length),
    (s.settle base vs)[j]'(by simpa using hj) = s.settleByte (base + j) vs[j]
  | _ :: _, _, 0, _ => rfl
  | v :: vs, base, j + 1, hj => by
    have ih := State.getElem_settle s vs (base + 1) j (by simpa using hj)
    rw [Nat.add_right_comm base 1 j] at ih
    exact ih

/-- What a byte of the output range holds when the command has completed. -/
theorem State.read_finish_complete {base j : Nat} {out : List Byte} (hw : s.mem.wf = true) (r : Option Word)
    (hj : j < out.length) : (s.finish (.complete r base out)).mem.read (base + j) = s.settleByte (base + j) out[j] := by
  rw [← s.getElem_settle out base j hj]
  exact Memory.read_writeBytes_inside _ (by simpa using hj) hw

variable (hw : s.mem.wf = true) (hu : s.Untouched) (hi : commandSizes i s.len.toNat = some (m, n))
  (ha : ¬(s.src.toNat ≤ a ∧ a < s.src.toNat + m))
include hu hi ha

/-- A host write outside the input range does not change how the command ends. -/
theorem planOf_hostWritten (v : Byte) (ws : List Nat) : planOf i (s.hostWritten a v false ws) = planOf i s := by
  refine planOf_congr (s.hostWritten_around a v false ws) ?_ hu.input rfl
  intro m' n' hi' b hge hlt
  obtain ⟨rfl, rfl⟩ : m = m' ∧ n = n' := by simpa [hi] using hi'
  exact Memory.read_write_other v (by rintro rfl; exact ha ⟨hge, hlt⟩) _

include hw

/-- A host write outside the input range disturbs nothing but its own byte. -/
theorem exec_hostWritten_elsewhere {u u' : State} {ws : List Nat} (hws : ∀ b ∈ ws, b = a) (h : exec i s = .next u)
    (h' : exec i (s.hostWritten a v false ws) = .next u') : SameEndBut a u u' := by
  rw [exec_next h, exec_next h', planOf_hostWritten hu hi ha]
  rcases planOf_memory hi with ⟨c, hp⟩ | ⟨out, hl, hp⟩ <;> rw [hp]
  · exact ⟨fun b hb => Memory.read_write_other v hb _, rfl, rfl⟩
  · refine ⟨fun b hb => ?_, rfl, rfl⟩
    by_cases hin : s.dst.toNat ≤ b ∧ b < s.dst.toNat + out.length
    · obtain ⟨j, rfl⟩ := Nat.exists_eq_add_of_le hin.1
      have hj : j < out.length := by omega
      rw [State.read_finish_complete hw _ hj, State.read_finish_complete (Memory.wf_write a v hw) _ hj,
        State.settleByte_of_not_written hu.input (by simp [hu.output]),
        State.settleByte_of_not_written rfl fun hmem => hb (hws _ hmem)]
    · rw [State.finish_complete_outside _ _ _ _ b hin, State.finish_complete_outside _ _ _ _ b hin]
      exact Memory.read_write_other v hb _

/-- The byte of a host write outside the input range ends as the host's, or, in the output range, as the command's. -/
theorem exec_hostWritten_at {u u' : State} {ws : List Nat} (h : exec i s = .next u)
    (h' : exec i (s.hostWritten a v false ws) = .next u') :
    u'.mem.read a = v ∨ ((s.dst.toNat ≤ a ∧ a < s.dst.toNat + n) ∧ u'.mem.read a = u.mem.read a) := by
  have hv : (s.hostWritten a v false ws).mem.read a = v := Memory.read_write_same a v hw
  rw [exec_next h, exec_next h', planOf_hostWritten hu hi ha]
  rcases planOf_memory hi with ⟨c, hp⟩ | ⟨out, hl, hp⟩ <;> rw [hp]
  · exact .inl hv
  · by_cases hin : s.dst.toNat ≤ a ∧ a < s.dst.toNat + out.length
    · obtain ⟨j, rfl⟩ := Nat.exists_eq_add_of_le hin.1
      have hj : j < out.length := by omega
      rw [State.read_finish_complete hw _ hj, State.read_finish_complete (Memory.wf_write _ v hw) _ hj,
        State.settleByte_of_not_written (s := s) hu.input (by simp [hu.output])]
      rcases State.settleByte_cases (s := s.hostWritten _ v false ws) rfl (s.dst.toNat + j) out[j] with hb | hb
      · exact .inl (hb.trans hv)
      · exact .inr ⟨hl ▸ hin, hb⟩
    · exact .inl ((State.finish_complete_outside _ _ _ _ a hin).trans hv)

end

/-- Settles O51: the written address is no input address, so the command ends as without the write but for that byte. -/
theorem hostWriteToOutputByte : Obligations.HostWriteToOutputByte := by
  intro i s s' a v m n hw hu hf hd hi hp hge hlt h
  have hin : ¬(s.src.toNat ≤ a.toNat ∧ a.toNat < s.src.toNat + m) := fun hin => hp.apart hin ⟨hge, hlt⟩
  have hs' : s' = s.hostWritten a.toNat v false [a.toNat] := by
    simpa [hin, hge, hlt] using hostWriteByte_in_flight hu hf hd hi hp h
  subst hs'
  have h := exec_eq_finish i s
  have h' := exec_eq_finish i (s.hostWritten a.toNat v false [a.toNat])
  obtain ⟨hbytes, hresult, herr⟩ := exec_hostWritten_elsewhere hw hu hi hin (by simp) h h'
  exact ⟨_, _, h, h', (exec_hostWritten_at hw hu hi hin h h').imp_right And.right, hbytes, hresult, herr⟩

theorem toNat_toReg {n : Nat} (h : fits n = true) : (toReg n).toNat = n := by
  have hle := (fits_iff n).1 h
  exact Nat.mod_eq_of_lt (by omega)

/-- A memory command whose checks pass ends with the RESULT of its rule, or is a PACK that refuses. -/
theorem finish_of_rangesPass {i : Instr} {s : State} {m n : Nat} (hi : commandSizes i s.len.toNat = some (m, n))
    (hp : s.RangesPass m n) :
    (EndedWith 0 (s.finish (planOf i s)) ∧ (s.finish (planOf i s)).result.toNat = n) ∨
      (i = .pack ∧ RefusedWith 1 s (s.finish (planOf i s))) := by
  rcases planOf_pass hi hp with ⟨out, hplan, _⟩ | ⟨rfl, _, hplan⟩ <;> rw [hplan]
  · exact .inl ⟨State.complete_ended _ _, toNat_toReg hp.fits_out⟩
  · exact .inr ⟨rfl, s.raise_refused .invalidInput⟩

/-- Settles O52: the checks pass after the write as before it, and the frame is that of every memory command. -/
theorem hostWriteToInputByte : Obligations.HostWriteToInputByte := by
  intro i s s' a v m n _ hu hf hd hi hp _ _ h
  rw [hostWriteByte_in_flight hu hf hd hi hp h]
  obtain ⟨haround, houtside, _⟩ := memoryCommandFrame i (s.hostWritten _ v _ _) _ m n hi (exec_eq_finish i _)
  exact ⟨_, exec_eq_finish i _, haround, houtside,
    finish_of_rangesPass hi (((s.hostWritten_around _ v _ _).rangesPass_iff m n).2 hp)⟩

/-- A host write inside memory stores its byte, and records a breach of the duty when there are ranges in flight. -/
theorem hostWriteByte_stores {s : State} {a : Word} (v : Byte) (hw : s.mem.wf = true) (ha : a.toNat < s.memSize) :
    ∃ t, hostWriteByte a v s = .next t ∧ t.mem.read a.toNat = v ∧ (∀ b, b ≠ a.toNat → t.mem.read b = s.mem.read b) ∧
      t = { s with mem := t.mem, inputTampered := t.inputTampered, hostWrote := t.hostWrote } ∧
      (s.flightRanges = none → t = { s with mem := t.mem }) := by
  obtain ⟨t, h⟩ := hostWriteByte_goes_on (Nat.not_le.2 ha) v
  have hsame := Memory.read_write_same a.toNat v hw
  have hother (b : Nat) (hb : b ≠ a.toNat) := Memory.read_write_other v hb s.mem
  obtain ⟨_, ⟨_, rfl⟩ | ⟨r, hr, rfl⟩⟩ := hostWriteByte_next h
  · exact ⟨_, h, hsame, hother, rfl, fun _ => rfl⟩
  · exact ⟨_, h, hsame, hother, rfl, fun hnone => by simp [hr] at hnone⟩

/-- Settles O53: a write outside both ranges records no breach, and its byte is outside what the command writes. -/
theorem hostWriteElsewhere : Obligations.HostWriteElsewhere := by
  refine ⟨fun s a v hw ha => hostWriteByte_stores v hw ha, fun s => State.flightRanges_eq_none, ?_⟩
  intro i s s' a v m n hw hu hf hd hi hp hin hout h
  have hs' : s' = s.hostWritten a.toNat v false [] := by
    rw [hostWriteByte_in_flight hu hf hd hi hp h, if_neg hout, decide_eq_false hin]
  subst hs'
  have h := exec_eq_finish i s
  have h' := exec_eq_finish i (s.hostWritten a.toNat v false [])
  obtain ⟨hbytes, hresult, herr⟩ := exec_hostWritten_elsewhere hw hu hi hin (by simp) h h'
  have hat := (exec_hostWritten_at hw hu hi hin h h').resolve_right fun hboth => hout hboth.1
  exact ⟨⟨rfl, rfl⟩, _, _, h, h', hat, hbytes, hresult, herr⟩

/-! ### The duty kept -/

theorem State.finish_untouched (e : CmdEnd) (s : State) : (s.finish e).Untouched := by cases e <;> exact ⟨rfl, rfl⟩

/-- No write of the window records a breach; an acceptance starts the record afresh. -/
theorem State.Untouched.writeReg {s : State} (hu : s.Untouched) (r : Reg) (w : Word) : (s.writeReg r w).Untouched := by
  obtain ⟨hin, hout⟩ := hu
  cases r with
  | id | result | reserved | ctrl => exact ⟨hin, hout⟩
  | status => exact s.writeReg_status w ▸ ⟨hin, hout⟩
  | cmd =>
    rw [State.writeReg]
    rcases s.accept_cases w with ⟨_, h⟩ | ⟨_, _, h⟩ | ⟨_, _, h⟩ <;> rw [h]
    · exact ⟨hin, hout⟩
    · exact ⟨hin, hout⟩
    · exact ⟨rfl, rfl⟩
  | arg | src | dst | len =>
    simp only [State.writeReg]
    split <;> exact ⟨hin, hout⟩

/-- Settles O54: the one step that records a breach is a host write to a range in flight, which breaks the duty. -/
theorem dutyKeepsUntouched : Obligations.DutyKeepsUntouched := by
  intro s t _ hu hduty hstep
  have hu' : s.popped.Untouched := ⟨hu.input, hu.output⟩
  cases step_next_case hstep with
  | waits hc hi ht => exact ht ▸ hu'
  | runs hc hr hf i hd ht => exact ht ▸ s.popped.finish_untouched _
  | rejects hc hr hf r hd ht => exact ht ▸ ⟨rfl, rfl⟩
  | regRead n o rest he hr v k ht => exact ht ▸ ⟨hu.input, hu.output⟩
  | regWriteHeld n o w rest he hs ht => exact ht ▸ hu'
  | regWrite n o w rest he hs r hr ht => exact ht ▸ hu'.writeReg r w
  | memRead a rest he ha v k ht => exact ht ▸ ⟨hu.input, hu.output⟩
  | memWriteApart a v rest he ha hf ht => exact ht ▸ ⟨hu.input, hu.output⟩
  | memWriteInFlight a v rest he ha r hf ht =>
    have hkept : r.inputHas a.toNat = false ∧ r.outputHas a.toNat = false := by
      have hk := hduty (.memWrite a v) (by simp [he])
      rw [State.flightRanges_popped] at hf
      simpa [State.dutyKept, hf] using hk
    subst ht
    exact ⟨by simp [hu.input, hkept.1], by simp [hu.output, hkept.2]⟩
  | rstAssert rest he ht => exact ht ▸ ⟨rfl, rfl⟩
  | rstDeassert rest he hs ht => exact ht ▸ ⟨rfl, rfl⟩
  | rstNoEdge rest he hs ht => exact ht ▸ hu'

end Sys2Proof.Machine
end

section
/-! The decoder, word by word, and what becomes of an illegal word (30_encoding.md R81 to R84; 60_exceptions.md R178). -/

namespace Sys2Proof

/-! ### The two fields of a word -/

theorem toNat_cmdOp (w : Word) : (cmdOp w).toNat = w.toNat % 16 := by simp [cmdOp]

theorem cmdRsvd_eq_zero_iff (w : Word) : cmdRsvd w = 0 ↔ w.toNat < 16 := by
  have hrsvd : (cmdRsvd w).toNat = w.toNat / 16 % 2 ^ 28 := by simp [cmdRsvd, Nat.shiftRight_eq_div_pow]
  rw [← BitVec.toNat_inj, hrsvd, BitVec.ofNat_eq_ofNat, BitVec.toNat_zero]
  have hw := w.isLt
  omega

/-! ### The three classes of words: legal, rejected by OP, rejected by RSVD -/

theorem decodeCmd_encode (i : Instr) : decodeCmd (encode i) = .ok i := by cases i <;> rfl

theorem exists_toNat_encode : ∀ n ≤ 7, ∃ i : Instr, (encode i).toNat = n
  | 0, _ => ⟨.nop, rfl⟩
  | 1, _ => ⟨.encSym, rfl⟩
  | 2, _ => ⟨.decSym, rfl⟩
  | 3, _ => ⟨.encMsg, rfl⟩
  | 4, _ => ⟨.decMsg, rfl⟩
  | 5, _ => ⟨.pack, rfl⟩
  | 6, _ => ⟨.unpack, rfl⟩
  | 7, _ => ⟨.encLen, rfl⟩
  | n + 8, h => absurd h (by omega)

theorem exists_eq_encode {w : Word} (h : w.toNat ≤ 7) : ∃ i, w = encode i := by
  obtain ⟨i, hi⟩ := exists_toNat_encode w.toNat h
  exact ⟨i, BitVec.eq_of_toNat_eq hi.symm⟩

theorem decodeCmd_reservedBits {w : Word} (h : 16 ≤ w.toNat) : decodeCmd w = .error .reservedBits := by
  have hrsvd : cmdRsvd w ≠ 0 := mt (cmdRsvd_eq_zero_iff w).1 (by omega)
  simp only [decodeCmd, if_pos hrsvd]

theorem decodeCmd_reservedOp {w : Word} (hlo : 8 ≤ w.toNat) (hhi : w.toNat < 16) : decodeCmd w = .error .reservedOp := by
  have hrsvd : ¬cmdRsvd w ≠ 0 := not_not.2 ((cmdRsvd_eq_zero_iff w).2 hhi)
  have hop : 8 ≤ (cmdOp w).toNat := by rw [toNat_cmdOp]; omega
  simp only [decodeCmd, if_neg hrsvd]
  split
  case h_9 => rfl
  all_goals omega

theorem decodeCmd_cases (w : Word) :
    (w.toNat ≤ 7 ∧ ∃ i, w = encode i ∧ decodeCmd w = .ok i) ∨
      (8 ≤ w.toNat ∧ w.toNat < 16 ∧ decodeCmd w = .error .reservedOp) ∨
      (16 ≤ w.toNat ∧ decodeCmd w = .error .reservedBits) := by
  rcases Nat.lt_or_ge w.toNat 8 with h8 | h8
  · obtain ⟨i, rfl⟩ := exists_eq_encode (Nat.le_of_lt_succ h8)
    exact .inl ⟨Nat.le_of_lt_succ h8, i, rfl, decodeCmd_encode i⟩
  · rcases Nat.lt_or_ge w.toNat 16 with h16 | h16
    · exact .inr (.inl ⟨h8, h16, decodeCmd_reservedOp h8 h16⟩)
    · exact .inr (.inr ⟨h16, decodeCmd_reservedBits h16⟩)

theorem decodeCmd_eq_ok_iff (w : Word) (i : Instr) : decodeCmd w = .ok i ↔ w = encode i := by
  refine ⟨fun h => ?_, fun h => h ▸ decodeCmd_encode i⟩
  obtain ⟨j, rfl⟩ := exists_eq_encode (Machine.toNat_le_of_decodeCmd h)
  cases (decodeCmd_encode j).symm.trans h
  rfl

/-- Settles O2, from the three classes of words (`decodeCmd_cases`). -/
theorem legalWordsAreTheEight : Obligations.LegalWordsAreTheEight := by
  refine ⟨⟨rfl, rfl, rfl, rfl, rfl, rfl, rfl, rfl⟩, fun w => ⟨decodeCmd_eq_ok_iff w, ?_⟩⟩
  rcases decodeCmd_cases w with ⟨hw, i, _, hd⟩ | ⟨hlo, hhi, hd⟩ | ⟨hw, hd⟩ <;> rw [hd]
  · exact ⟨iff_of_true ⟨i, rfl⟩ hw, iff_of_false nofun (by omega), iff_of_false nofun (by omega)⟩
  · exact ⟨iff_of_false nofun (by omega), iff_of_false nofun (by omega), iff_of_true rfl ⟨hlo, hhi⟩⟩
  · exact ⟨iff_of_false nofun (by omega), iff_of_true rfl hw, iff_of_false nofun (by omega)⟩

end Sys2Proof

namespace Sys2Proof.Machine

/-! ### An illegal word in flight, and a word that is not accepted -/

theorem decodeCmd_ne_ok_iff (w : Word) : (¬∃ i, decodeCmd w = .ok i) ↔ 8 ≤ w.toNat := by
  obtain ⟨_, hlegal, _⟩ := legalWordsAreTheEight.2 w
  exact hlegal.not.trans Nat.not_le

theorem runWord_illegal {w : Word} (h : 8 ≤ w.toNat) (s : State) : runWord w s = .next (s.raise .illegalCommand) := by
  cases hd : decodeCmd w with
  | ok i => exact absurd ⟨i, hd⟩ ((decodeCmd_ne_ok_iff w).2 h)
  | error r => exact runWord_error hd s

theorem step_illegal {s : State} (hr : s.rst = false) (hf : s.inFlight = true) (hw : 8 ≤ s.curCmd.toNat) (hc : s.CoreNext) :
    step s = .next (s.popped.raise .illegalCommand) := by
  rw [step_of_coreNext hc]
  simp [coreTurn, hr, hf, runWord_illegal hw]

theorem exec_nop (s : State) : exec .nop s = .next (s.complete none) := rfl

theorem State.accept_ignored {s : State} (h : s.fatal = true ∨ s.busy = true) (w : Word) : s.accept w = s := by
  rcases h with hf | hb
  · exact State.accept_of_fatal hf w
  · simp [State.accept, hb]

theorem hostWriteReg_cmd_ignored {s : State} (h : s.fatal = true ∨ s.busy = true) (w : Word) :
    hostWriteReg 4 0x0C w s = .next s := by
  cases hs : s.rst with
  | true => exact hostWriteReg_in_reset (r := .cmd) rfl hs w
  | false => rw [hostWriteReg_cmd hs, State.accept_ignored h]

/-- Settles O6: the core's turn raises IllegalCommand (`step_illegal`), and `raise` changes STATUS alone (`State.raise_refused`). -/
theorem illegalWordEndsAtCoreTurn : Obligations.IllegalWordEndsAtCoreTurn := by
  refine ⟨decodeCmd_ne_ok_iff, fun s hr hf hw => ⟨fun hin => ?_, fun rest hin => ?_⟩, fun s => ?_,
    fun s w h => hostWriteReg_cmd_ignored h w⟩
  · rw [step_illegal hr hf hw (.inl hin), State.popped_of_nil hin]
    exact ⟨_, rfl, s.raise_refused .illegalCommand⟩
  · rw [step_illegal hr hf hw (.inr (by simp [hin])), State.popped_of_cons hin]
    exact ⟨_, rfl, State.raise_refused .illegalCommand _⟩
  · exact ⟨_, exec_nop s, State.complete_ended none s, State.complete_around none s, rfl, rfl⟩

end Sys2Proof.Machine
end

section
/-! The symbol codec: the layout of a codeword, the syndrome as the received parity bits against the recomputed ones, and its
linearity (40_symbol_codec.md R100 to R110). -/

namespace Sys2Proof.Machine

/-! ### Bits of the layout -/

theorem getLsbD_codewordFields (p1 p2 d7 p4 p8 : BitVec 1) (d64 : BitVec 3) (d30 : BitVec 4) (i : Nat) :
    (p1 ++ p2 ++ d7 ++ p4 ++ d64 ++ p8 ++ d30).getLsbD i =
      if i < 4 then d30.getLsbD i else if i < 5 then p8.getLsbD (i - 4) else if i < 8 then d64.getLsbD (i - 5) else
      if i < 9 then p4.getLsbD (i - 8) else if i < 10 then d7.getLsbD (i - 9) else if i < 11 then p2.getLsbD (i - 10) else
      p1.getLsbD (i - 11) := by
  simp only [BitVec.getLsbD_append]
  grind

/-- The layout of R100: parity at bits 11, 10, 8, 4, data at the others. -/
theorem getLsbD_encode12 (d : Byte) (i : Nat) :
    (encode12 d).getLsbD i =
      if i < 4 then d.getLsbD i else if i = 4 then bdot d maskM8 else if i < 8 then d.getLsbD (i - 1) else
      if i = 8 then bdot d maskM4 else if i = 9 then d.getLsbD 7 else if i = 10 then bdot d maskM2 else
      decide (i = 11) && bdot d maskM1 := by
  rcases Nat.lt_or_ge i 12 with hi | hi
  · refine (getLsbD_codewordFields (.ofBool (bdot d maskM1)) (.ofBool (bdot d maskM2)) (d.extractLsb' 7 1)
      (.ofBool (bdot d maskM4)) (.ofBool (bdot d maskM8)) (d.extractLsb' 4 3) (d.extractLsb' 0 4) i).trans ?_
    interval_cases i <;> simp
  · rw [BitVec.getLsbD_of_ge _ _ hi]
    grind

theorem getLsbD_byteFields (d7 : BitVec 1) (d64 : BitVec 3) (d30 : BitVec 4) (i : Nat) :
    (d7 ++ d64 ++ d30).getLsbD i =
      if i < 4 then d30.getLsbD i else if i < 7 then d64.getLsbD (i - 4) else d7.getLsbD (i - 7) := by
  simp only [BitVec.getLsbD_append]
  grind

theorem getLsbD_extract (c : Symbol) (i : Nat) :
    (extract c).getLsbD i =
      if i < 4 then c.getLsbD i else if i < 7 then c.getLsbD (i + 1) else decide (i = 7) && c.getLsbD 9 := by
  rcases Nat.lt_or_ge i 8 with hi | hi
  · refine (getLsbD_byteFields (c.extractLsb' 9 1) (c.extractLsb' 5 3) (c.extractLsb' 0 4) i).trans ?_
    interval_cases i <;> simp
  · rw [BitVec.getLsbD_of_ge _ _ hi]
    grind

@[simp] theorem extract_encode12 (d : Byte) : extract (encode12 d) = d := by
  refine BitVec.eq_of_getLsbD_eq fun i hi => ?_
  simp only [getLsbD_extract, getLsbD_encode12]
  grind

theorem encode12_injective {d d' : Byte} (h : encode12 d = encode12 d') : d = d' := by
  rw [← extract_encode12 d, h, extract_encode12]

/-! ### The formulas of R104 and R106, bit by bit -/

theorem testBit_0x0F (i : Nat) : Nat.testBit 0x0F i = decide (i < 4) := Nat.testBit_two_pow_sub_one 4 i

theorem testBit_0x70 (i : Nat) : Nat.testBit 0x70 i = (decide (4 ≤ i) && decide (i < 7)) := by
  refine (Nat.testBit_shiftLeft (2 ^ 3 - 1) (i := 4) (j := i)).trans ?_
  rw [Nat.testBit_two_pow_sub_one]
  grind

theorem testBit_0x80 (i : Nat) : Nat.testBit 0x80 i = decide (i = 7) := by
  simpa [eq_comm] using Nat.testBit_two_pow (n := 7) (m := i)

theorem testBit_toNat_shiftLeft (b : Bool) (k i : Nat) : (b.toNat <<< k).testBit i = (decide (i = k) && b) := by
  cases b with
  | false => simp
  | true => simp [Nat.shiftLeft_eq, Nat.testBit_two_pow, eq_comm]

theorem popcount_mod_two {w : Nat} (x : BitVec w) : popcount x % 2 = (parity x).toNat := by
  rcases Nat.mod_two_eq_zero_or_one (popcount x) with h | h <;> simp [parity, h]

theorem toNat_encode12 (d : Byte) :
    (encode12 d).toNat = (d.toNat &&& 0x0F) ||| ((d.toNat &&& 0x70) <<< 1) ||| ((d.toNat &&& 0x80) <<< 2) |||
      ((popcount (d &&& 0xDA) % 2) <<< 11) ||| ((popcount (d &&& 0xB6) % 2) <<< 10) |||
      ((popcount (d &&& 0x71) % 2) <<< 8) ||| ((popcount (d &&& 0x0F) % 2) <<< 4) := by
  refine Nat.eq_of_testBit_eq fun i => ?_
  simp only [popcount_mod_two, Nat.testBit_or, testBit_toNat_shiftLeft]
  simp only [BitVec.testBit_toNat, getLsbD_encode12, Nat.testBit_and, Nat.testBit_shiftLeft, testBit_0x80, testBit_0x70,
    testBit_0x0F, bdot, maskM1, maskM2, maskM4, maskM8]
  grind

theorem toNat_extract (c : Symbol) :
    (extract c).toNat = ((c.toNat >>> 2) &&& 0x80) ||| ((c.toNat >>> 1) &&& 0x70) ||| (c.toNat &&& 0x0F) := by
  refine Nat.eq_of_testBit_eq fun i => ?_
  simp only [BitVec.testBit_toNat, getLsbD_extract, Nat.testBit_or, Nat.testBit_and, Nat.testBit_shiftRight, testBit_0x80,
    testBit_0x70, testBit_0x0F]
  grind

/-- Settles O7: the layout is `getLsbD_encode12` at each bit, the formula has the same bits. -/
theorem encoderLayout : Obligations.EncoderLayout := by
  refine ⟨by decide, by decide, by decide, fun d => ⟨?_, toNat_encode12 d⟩⟩
  have hbit := getLsbD_encode12 d
  exact ⟨hbit 11, hbit 10, hbit 9, hbit 8, hbit 7, hbit 6, hbit 5, hbit 4, hbit 3, hbit 2, hbit 1, hbit 0⟩

/-! ### Flipped bits -/

theorem extract_xor (a b : Symbol) : extract (a ^^^ b) = extract a ^^^ extract b := by
  refine BitVec.eq_of_getLsbD_eq fun i _ => ?_
  simp only [getLsbD_extract, BitVec.getLsbD_xor]
  grind

theorem extract_parityBit : ∀ q ∈ [11, 10, 8, 4], extract (1#12 <<< q) = 0#8 := by decide

@[simp] theorem flipBit_flipBit (c : Symbol) (q : Nat) : flipBit (flipBit c q) q = c := by simp [flipBit]

/-- Settles O8: `extract` is linear and maps each parity bit to 0. -/
theorem extractStripsParity : Obligations.ExtractStripsParity := by
  refine ⟨fun c => ⟨toNat_extract c, fun q hq => ?_⟩, extract_encode12⟩
  rw [flipBit, extract_xor, extract_parityBit q hq, BitVec.xor_zero]

/-! ### The syndrome compares the parity bits with those of the extracted byte -/

theorem countBits_succ_odd (f : Nat → Bool) (n : Nat) :
    (countBits f (n + 1) % 2 == 1) = (f n ^^ (countBits f n % 2 == 1)) := by
  rw [countBits]
  rcases Nat.mod_two_eq_zero_or_one (countBits f n) with h | h <;> cases f n <;> simp [h, Nat.add_mod]

theorem bdot_symbol (x m : Symbol) :
    bdot x m =
      ((x.getLsbD 11 && m.getLsbD 11) ^^ (x.getLsbD 10 && m.getLsbD 10) ^^ (x.getLsbD 9 && m.getLsbD 9) ^^
        (x.getLsbD 8 && m.getLsbD 8) ^^ (x.getLsbD 7 && m.getLsbD 7) ^^ (x.getLsbD 6 && m.getLsbD 6) ^^
        (x.getLsbD 5 && m.getLsbD 5) ^^ (x.getLsbD 4 && m.getLsbD 4) ^^ (x.getLsbD 3 && m.getLsbD 3) ^^
        (x.getLsbD 2 && m.getLsbD 2) ^^ (x.getLsbD 1 && m.getLsbD 1) ^^ (x.getLsbD 0 && m.getLsbD 0)) := by
  simp only [bdot, parity, popcount, countBits_succ_odd, BitVec.getLsbD_and]
  simp [countBits]

theorem bdot_extract (c : Symbol) (m : Byte) :
    bdot (extract c) m =
      ((c.getLsbD 9 && m.getLsbD 7) ^^ (c.getLsbD 7 && m.getLsbD 6) ^^ (c.getLsbD 6 && m.getLsbD 5) ^^
        (c.getLsbD 5 && m.getLsbD 4) ^^ (c.getLsbD 3 && m.getLsbD 3) ^^ (c.getLsbD 2 && m.getLsbD 2) ^^
        (c.getLsbD 1 && m.getLsbD 1) ^^ (c.getLsbD 0 && m.getLsbD 0)) := by
  simp only [bdot, parity, popcount, countBits_succ_odd, BitVec.getLsbD_and, getLsbD_extract]
  simp [countBits]

/-- Each syndrome bit is a parity bit as received, against the one computed anew from the data bits. -/
theorem bdot_syndromeMask (c : Symbol) :
    bdot c maskS8 = (c.getLsbD 4 ^^ bdot (extract c) maskM8) ∧ bdot c maskS4 = (c.getLsbD 8 ^^ bdot (extract c) maskM4) ∧
      bdot c maskS2 = (c.getLsbD 10 ^^ bdot (extract c) maskM2) ∧
      bdot c maskS1 = (c.getLsbD 11 ^^ bdot (extract c) maskM1) := by
  simp only [bdot_symbol, bdot_extract]
  simp [maskS8, maskS4, maskS2, maskS1, maskM8, maskM4, maskM2, maskM1]

theorem syndrome_eq_zero_iff (c : Symbol) :
    syndrome c = 0 ↔ c.getLsbD 4 = bdot (extract c) maskM8 ∧ c.getLsbD 8 = bdot (extract c) maskM4 ∧
      c.getLsbD 10 = bdot (extract c) maskM2 ∧ c.getLsbD 11 = bdot (extract c) maskM1 := by
  obtain ⟨h8, h4, h2, h1⟩ := bdot_syndromeMask c
  simp [syndrome, h8, h4, h2, h1, and_assoc]

@[simp] theorem syndrome_encode12 (d : Byte) : syndrome (encode12 d) = 0 := by
  have hbit := getLsbD_encode12 d
  rw [syndrome_eq_zero_iff, extract_encode12]
  exact ⟨hbit 4, hbit 8, hbit 10, hbit 11⟩

theorem encode12_extract {c : Symbol} (h : syndrome c = 0) : encode12 (extract c) = c := by
  obtain ⟨h4, h8, h10, h11⟩ := (syndrome_eq_zero_iff c).1 h
  refine BitVec.eq_of_getLsbD_eq fun i hi => ?_
  simp only [getLsbD_encode12, ← h4, ← h8, ← h10, ← h11, getLsbD_extract]
  grind

/-! ### What the decoder does, by the syndrome (R107) -/

theorem decode12_of_syndrome_zero {c : Symbol} (h : syndrome c = 0) : decode12 c = extract c := by simp [decode12, correct, h]

theorem decode12_of_syndrome_position {c : Symbol} (h0 : syndrome c ≠ 0) (h12 : syndrome c ≤ 12) :
    decode12 c = extract (flipBit c (12 - syndrome c)) := by
  simp [decode12, correct, h0, h12]

theorem decode12_of_syndrome_beyond {c : Symbol} (h : 13 ≤ syndrome c) : decode12 c = extract c := by
  simp [decode12, correct, show ¬syndrome c ≤ 12 by omega]

theorem decode12_encode12 (d : Byte) : decode12 (encode12 d) = d := by
  rw [decode12_of_syndrome_zero (syndrome_encode12 d), extract_encode12]

/-- Settles O9: `extract` undoes the encoder, and on the symbols of syndrome 0 the encoder undoes `extract`. -/
theorem codewordsDecodeBack : Obligations.CodewordsDecodeBack :=
  ⟨fun d => ⟨syndrome_encode12 d, decode12_encode12 d⟩, fun _ _ => encode12_injective,
    fun _ h => ⟨_, (encode12_extract h).symm⟩⟩

/-! ### The syndrome is linear and names the position of a flipped bit -/

theorem countBits_xor_odd (f g : Nat → Bool) (n : Nat) :
    (countBits (fun i => f i ^^ g i) n % 2 == 1) = ((countBits f n % 2 == 1) ^^ (countBits g n % 2 == 1)) := by
  induction n with
  | zero => rfl
  | succ n ih => simp only [countBits_succ_odd, ih, Bool.xor_assoc, Bool.xor_left_comm]

theorem bdot_xor {w : Nat} (x y m : BitVec w) : bdot (x ^^^ y) m = (bdot x m ^^ bdot y m) := by
  have hbits : ((x ^^^ y) &&& m).getLsbD = fun i => (x &&& m).getLsbD i ^^ (y &&& m).getLsbD i := by
    funext i
    simp only [BitVec.getLsbD_and, BitVec.getLsbD_xor, Bool.and_xor_distrib_right]
  simp only [bdot, parity, popcount, hbits, countBits_xor_odd]

/-- A number of four bits, as the syndrome is put together (R105): XOR goes bit by bit. -/
theorem fourBits_xor : ∀ a b c d a' b' c' d' : Bool,
    (a ^^ a').toNat * 8 + (b ^^ b').toNat * 4 + (c ^^ c').toNat * 2 + (d ^^ d').toNat =
      (a.toNat * 8 + b.toNat * 4 + c.toNat * 2 + d.toNat) ^^^ (a'.toNat * 8 + b'.toNat * 4 + c'.toNat * 2 + d'.toNat) := by
  decide

theorem syndrome_xor (a b : Symbol) : syndrome (a ^^^ b) = syndrome a ^^^ syndrome b := by
  simp only [syndrome, bdot_xor, fourBits_xor]

theorem syndrome_bit : ∀ q < 12, syndrome (1#12 <<< q) = 12 - q := by decide

theorem syndrome_flipBit (c : Symbol) {q : Nat} (hq : q < 12) : syndrome (flipBit c q) = syndrome c ^^^ (12 - q) := by
  rw [flipBit, syndrome_xor, syndrome_bit q hq]

theorem syndrome_flipBit_position (c : Symbol) {p : Nat} (h1 : 1 ≤ p) (h12 : p ≤ 12) :
    syndrome (flipBit c (12 - p)) = syndrome c ^^^ p := by
  rw [syndrome_flipBit c (by omega), Nat.sub_sub_self h12]

theorem syndrome_flipBit_encode12 (d : Byte) {q : Nat} (hq : q < 12) : syndrome (flipBit (encode12 d) q) = 12 - q := by
  rw [syndrome_flipBit _ hq, syndrome_encode12, Nat.zero_xor]

theorem decode12_flipBit_encode12 (d : Byte) {q : Nat} (hq : q < 12) : decode12 (flipBit (encode12 d) q) = d := by
  have hs := syndrome_flipBit_encode12 d hq
  rw [decode12_of_syndrome_position (by omega) (by omega), hs, Nat.sub_sub_self hq.le, flipBit_flipBit, extract_encode12]

/-! ### Each syndrome has the symbols of one coset of the code -/

/-- A symbol of syndrome z: one flipped bit or none, or two for the syndromes that are no position. -/
def errorOf (z : Nat) : Symbol := if z ≤ 12 then 1#12 <<< (12 - z) else 1#12 ^^^ 1#12 <<< (24 - z)

theorem syndrome_errorOf : ∀ z < 16, syndrome (errorOf z) = z := by decide

theorem syndrome_eq_iff (c : Symbol) {z : Nat} (hz : z < 16) : syndrome c = z ↔ ∃ d, encode12 d ^^^ errorOf z = c := by
  constructor
  · intro h
    have h0 : syndrome (c ^^^ errorOf z) = 0 := by rw [syndrome_xor, h, syndrome_errorOf z hz, Nat.xor_self]
    exact ⟨_, by rw [encode12_extract h0, BitVec.xor_assoc, BitVec.xor_self, BitVec.xor_zero]⟩
  · rintro ⟨d, rfl⟩
    rw [syndrome_xor, syndrome_encode12, syndrome_errorOf z hz, Nat.zero_xor]

/-- The symbols of syndrome z are the 256 codewords moved by `errorOf z`. -/
theorem symbolsOfSyndrome_perm {z : Nat} (hz : z < 16) :
    ((List.range 4096).filter fun n => syndrome (BitVec.ofNat 12 n) == z).Perm
      ((List.range 256).map fun k => (encode12 (BitVec.ofNat 8 k) ^^^ errorOf z).toNat) := by
  refine (List.perm_ext_iff_of_nodup (List.nodup_range.filter _) (List.nodup_range.map_on ?_)).2 fun n => ?_
  · intro k hk k' hk' h
    have hd := encode12_injective ((BitVec.xor_left_inj _).1 (BitVec.eq_of_toNat_eq h))
    simpa [← BitVec.toNat_inj, Nat.mod_eq_of_lt, List.mem_range.1 hk, List.mem_range.1 hk'] using hd
  · simp only [List.mem_filter, List.mem_range, beq_iff_eq, List.mem_map, syndrome_eq_iff _ hz]
    constructor
    · rintro ⟨hn, d, hd⟩
      exact ⟨d.toNat, d.isLt, by simp [hd, Nat.mod_eq_of_lt hn]⟩
    · rintro ⟨k, _, rfl⟩
      exact ⟨BitVec.isLt _, BitVec.ofNat 8 k, by simp⟩

end Sys2Proof.Machine
end

section
/-! The symbol commands and how each ends (40_symbol_codec.md R110, R113 to R115). -/

namespace Sys2Proof.Machine

/-! ### A command that writes no byte -/

theorem exec_completes {i : Instr} {s : State} {v : Word} (h : planOf i s = .complete (some v) 0 []) :
    ∃ t, exec i s = .next t ∧ EndedWith 0 t ∧ SameAround s t ∧ t.mem = s.mem ∧ t.result = v := by
  rw [exec_eq_finish, h]
  exact ⟨_, rfl, State.complete_ended _ s, State.complete_around _ s, rfl, rfl⟩

theorem exec_refuses {i : Instr} {s : State} {c : CmdError} (h : planOf i s = .raise c) :
    ∃ t, exec i s = .next t ∧ RefusedWith c.code s t := by
  rw [exec_eq_finish, h]
  exact ⟨_, rfl, s.raise_refused c⟩

/-! ### Both sides of the limit on ARG -/

theorem planOf_encSym_of_lt {s : State} (h : s.arg.toNat < 2 ^ 8) :
    planOf .encSym s = .complete (some ((encode12 (s.arg.extractLsb' 0 8)).setWidth 32)) 0 [] :=
  if_neg (Nat.not_le.2 h)

theorem planOf_encSym_of_le {s : State} (h : 2 ^ 8 ≤ s.arg.toNat) : planOf .encSym s = .raise .invalidInput := if_pos h

theorem planOf_decSym_of_lt {s : State} (h : s.arg.toNat < 2 ^ 12) :
    planOf .decSym s = .complete (some ((decode12 (s.arg.extractLsb' 0 12)).setWidth 32)) 0 [] :=
  if_neg (Nat.not_le.2 h)

theorem planOf_decSym_of_le {s : State} (h : 2 ^ 12 ≤ s.arg.toNat) : planOf .decSym s = .raise .invalidInput := if_pos h

/-- Settles O13: `complete` below 2^8, `raise` from there on. -/
theorem encSymEncodesOrRefuses : Obligations.EncSymEncodesOrRefuses :=
  ⟨decodeCmd_encode .encSym, fun _ h => exec_completes (planOf_encSym_of_lt h), fun _ h => exec_refuses (planOf_encSym_of_le h),
    by decide⟩

/-- Settles O14: `complete` below 2^12, `raise` from there on. -/
theorem decSymDecodesOrRefuses : Obligations.DecSymDecodesOrRefuses :=
  ⟨decodeCmd_encode .decSym, fun _ h => exec_completes (planOf_decSym_of_lt h), fun _ h => exec_refuses (planOf_decSym_of_le h),
    by decide⟩

/-- Settles O10: the flipped bits give the syndrome, which is linear; each syndrome's symbols are a coset of the code. -/
theorem singleErrorsCorrected : Obligations.SingleErrorsCorrected := by
  refine ⟨fun d q hq => ⟨decode12_flipBit_encode12 d hq, syndrome_flipBit_encode12 d hq⟩, ?_, fun z hz => ?_, fun s h => ?_⟩
  · intro d a b ha1 ha12 hb1 hb12 hab c
    have hs : syndrome c = a ^^^ b := by
      rw [syndrome_flipBit_position _ hb1 hb12, syndrome_flipBit_position _ ha1 ha12, syndrome_encode12, Nat.zero_xor]
    have hne : a ^^^ b ≠ 0 := mt Nat.xor_eq_zero_iff.1 hab
    refine ⟨hs, hne, fun h12 => ?_, fun h13 => decode12_of_syndrome_beyond (by omega)⟩
    rw [decode12_of_syndrome_position (by omega) (by omega), hs]
  · rw [(symbolsOfSyndrome_perm hz).length_eq, List.length_map, List.length_range]
  · obtain ⟨t, hexec, hended, haround, _⟩ := exec_completes (planOf_decSym_of_lt h)
    exact ⟨t, hexec, hended, haround⟩

theorem State.statusWord_complete {s : State} (hf : s.fatal = false) (r : Option Word) :
    (s.complete r).statusWord = 0x00000002 := by
  simp only [State.statusWord, State.complete_busy, State.complete_done, State.complete_fatal, State.complete_err, hf]
  decide

/-- Settles O12: NOP is `complete` with no result (`exec_nop`). -/
theorem nopCompletes : Obligations.NopCompletes := by
  refine ⟨decodeCmd_encode .nop, fun s => ⟨_, exec_nop s, State.complete_ended none s, State.complete_around none s, rfl, rfl, ?_⟩⟩
  intro hf hirq
  exact ⟨State.statusWord_complete hf none, by simp [State.irq, hirq]⟩

end Sys2Proof.Machine
end

section
/-! The packer's functions: the length function, pack and unpack as inverses, the layout of a packed byte, and a message under flipped
bits (41_message_packer.md R130 to R144). -/

namespace Sys2Proof.Machine

/-! ### The length function and the count limit -/

theorem encLen_two_mul (k : Nat) : encLen (2 * k) = 3 * k := by
  rw [encLen_eq]
  omega

theorem encLen_two_mul_add_one (k : Nat) : encLen (2 * k + 1) = 3 * k + 2 := by
  rw [encLen_eq]
  omega

theorem encLen_strictMono : StrictMono encLen := by
  refine strictMono_nat_of_lt_succ fun n => ?_
  rw [encLen_eq, encLen_eq]
  omega

/-- Settles O17: the length function is `(3 * n + 1) / 2` (`encLen_eq`). -/
theorem encLenStrictlyIncreasing : Obligations.EncLenStrictlyIncreasing := by
  refine ⟨fun k => ⟨encLen_two_mul k, encLen_two_mul_add_one k⟩, fun _ _ h => encLen_strictMono h,
    fun _ _ h => encLen_strictMono.injective h, fun a => ?_⟩
  rw [encLen_eq]
  omega

theorem fits_encLen_iff (l : Nat) : fits (encLen l) = true ↔ l ≤ 0xAAAAAAAA := by
  rw [fits_iff, encLen_eq]
  omega

theorem fits_two_mul_iff (n : Nat) : fits (2 * n) = true ↔ n ≤ 0x7FFFFFFF := by
  rw [fits_iff]
  omega

/-! ### Pack and unpack -/

/-- Bytes that hold n packed symbols: none, the two of a tail, or three of a pair before the bytes of n - 2 symbols. -/
inductive HoldsPacked : List Byte → Nat → Prop where
  | nil : HoldsPacked [] 0
  | tail (lo hi : Byte) : HoldsPacked [lo, hi] 1
  | pair (x y z : Byte) {rest : List Byte} {n : Nat} (h : HoldsPacked rest n) : HoldsPacked (x :: y :: z :: rest) (n + 2)

theorem HoldsPacked.length_eq {b : List Byte} {n : Nat} (h : HoldsPacked b n) : b.length = encLen n := by
  induction h with
  | nil => rfl
  | tail => rfl
  | pair x y z h ih => simp [encLen_add_two, ih]

/-- The length says how the bytes are made up. -/
theorem holdsPacked_of_length : ∀ {b : List Byte} {n : Nat}, b.length = encLen n → HoldsPacked b n
  | b, 0, h => List.length_eq_zero_iff.1 h ▸ .nil
  | b, 1, h => by
    obtain ⟨lo, hi, rfl⟩ := List.length_eq_two.1 h
    exact .tail lo hi
  | b, n + 2, h => by
    rw [encLen_add_two] at h
    match b, h with
    | x :: y :: z :: rest, h => exact .pair x y z (holdsPacked_of_length (by simpa using h))

@[simp] theorem unpackBytes_packSymbols (s : List Symbol) : unpackBytes (packSymbols s) s.length = s := by
  induction s using packSymbols.induct with
  | case1 a b rest ih => simp [packSymbols, unpackBytes, ih]
  | case2 t => simp [packSymbols, unpackBytes]
  | case3 => rfl

theorem setWidth_loNibble {v : Byte} (h : hiNibble v = 0#4) : (loNibble v).setWidth 8 = v := by
  have hjoin : ∀ n : BitVec 4, joinNibbles 0#4 n = n.setWidth 8 := by decide
  rw [← hjoin, ← h, joinNibbles_parts]

theorem HoldsPacked.ne_nil {b : List Byte} {n : Nat} (h : HoldsPacked b n) (hn : 0 < n) : b ≠ [] := by
  cases h <;> simp at hn ⊢

theorem packSymbols_unpackBytes {b : List Byte} {n : Nat} (h : HoldsPacked b n) :
    (n % 2 = 1 → ∀ v, b.getLast? = some v → hiNibble v = 0#4) → packSymbols (unpackBytes b n) = b := by
  induction h with
  | nil => exact fun _ => rfl
  | tail lo hi =>
    intro htail
    have hhi : hiNibble hi = 0#4 := htail rfl hi rfl
    simp [unpackBytes, packSymbols, setWidth_loNibble hhi]
  | @pair x y z rest n hrest ih =>
    intro htail
    have hpack : packSymbols (unpackBytes rest n) = rest := by
      refine ih fun hn v hv => htail (by omega) v ?_
      rwa [← List.getLast?_append_of_ne_nil [x, y, z] (hrest.ne_nil (by omega))] at hv
    simp [unpackBytes, packSymbols, hpack]

/-- Settles O19: by induction over pairs, from the nibbles and bytes of one pair. -/
theorem packUnpackInverse : Obligations.PackUnpackInverse :=
  ⟨fun s => ⟨unpackBytes_packSymbols s, length_packSymbols s⟩,
    fun b n h => ⟨length_unpackBytes b n h.ge, packSymbols_unpackBytes (holdsPacked_of_length h)⟩⟩

/-! ### The tail's upper nibble (R138) -/

theorem unpackBytes_set_tail {b : List Byte} {n : Nat} (h : HoldsPacked b n) (hn : n % 2 = 1) {v v' : Byte}
    (hv : b[encLen n - 1]? = some v) (hlo : loNibble v' = loNibble v) :
    unpackBytes (b.set (encLen n - 1) v') n = unpackBytes b n := by
  induction h with
  | nil => simp at hn
  | tail lo hi =>
    obtain rfl : hi = v := Option.some.inj hv
    simp [unpackBytes, hlo]
  | @pair x y z rest n hrest ih =>
    have hpos : 0 < encLen n := by rw [encLen_eq]; omega
    have hlast : encLen (n + 2) - 1 = encLen n - 1 + 3 := by rw [encLen_add_two]; omega
    rw [hlast] at hv ⊢
    simp only [List.set_cons_succ, unpackBytes, ih (by omega) hv]

/-- Settles O20: the last byte shows in the unpacked symbols through its low nibble alone (`unpackBytes_set_tail`). -/
theorem tailNibbleIgnored : Obligations.TailNibbleIgnored := by
  intro b n v v' hn h hv hlo
  have hsame := unpackBytes_set_tail (holdsPacked_of_length h) hn hv hlo
  exact ⟨hsame, congrArg (List.map decode12) hsame⟩

/-! ### The layout of the packed bytes (R135, R136, R140) -/

theorem packSymbols_pair : ∀ {s : List Symbol} {j : Nat} {a b : Symbol}, s[2 * j]? = some a → s[2 * j + 1]? = some b →
    (packSymbols s)[3 * j]? = some (lowByte a) ∧ (packSymbols s)[3 * j + 1]? = some (lowByte b) ∧
      (packSymbols s)[3 * j + 2]? = some (joinNibbles (highNibble b) (highNibble a))
  | [], _, _, _, ha, _ => by simp at ha
  | [_], _, _, _, _, hb => by simp at hb
  | _ :: _ :: _, 0, _, _, ha, hb => by
    obtain rfl := Option.some.inj ha
    obtain rfl := Option.some.inj hb
    exact ⟨rfl, rfl, rfl⟩
  | _ :: _ :: rest, _ + 1, _, _, ha, hb => packSymbols_pair (s := rest) ha hb

theorem packSymbols_tail : ∀ {s : List Symbol} {j : Nat} {t : Symbol}, s.length = 2 * j + 1 → s[2 * j]? = some t →
    (packSymbols s)[3 * j]? = some (lowByte t) ∧ (packSymbols s)[3 * j + 1]? = some ((highNibble t).setWidth 8)
  | [], _, _, _, ht => by simp at ht
  | [_], 0, _, _, ht => by
    obtain rfl := Option.some.inj ht
    exact ⟨rfl, rfl⟩
  | [_], j + 1, _, hlen, _ => by simp at hlen
  | _ :: _ :: _, 0, _, hlen, _ => by simp at hlen
  | _ :: _ :: rest, j + 1, _, hlen, ht => packSymbols_tail (s := rest) (by simpa [Nat.mul_add] using hlen) ht

/-- The byte two symbols share, bit by bit. -/
theorem getLsbD_sharedByte (a b : Symbol) {i : Nat} (hi : i < 8) :
    (joinNibbles (highNibble b) (highNibble a)).getLsbD i = if i ≤ 3 then a.getLsbD (8 + i) else b.getLsbD (4 + i) := by
  rw [getLsbD_joinNibbles]
  rcases Nat.lt_or_ge i 4 with h | h
  · rw [if_pos h, if_pos (by omega), getLsbD_highNibble a h]
  · rw [if_neg (by omega), if_neg (by omega), getLsbD_highNibble b (by omega), show 8 + (i - 4) = 4 + i by omega]

/-- The second byte of a tail, bit by bit. -/
theorem getLsbD_tailByte (t : Symbol) {i : Nat} (hi : i < 8) :
    ((highNibble t).setWidth 8).getLsbD i = if i ≤ 3 then t.getLsbD (8 + i) else false := by
  rw [BitVec.getLsbD_setWidth, decide_eq_true hi, Bool.true_and]
  rcases Nat.lt_or_ge i 4 with h | h
  · rw [if_pos (by omega), getLsbD_highNibble t h]
  · rw [if_neg (by omega), BitVec.getLsbD_of_ge _ _ h]

/-- Settles O21: where each byte stands (`packSymbols_pair`, `packSymbols_tail`), then its bits. -/
theorem packedBitMap : Obligations.PackedBitMap := by
  refine ⟨fun s j a b ha hb => ?_, fun s j t hlen ht => ?_⟩
  · obtain ⟨hx, hy, hz⟩ := packSymbols_pair ha hb
    exact ⟨_, _, _, hx, hy, hz,
      fun i hi => ⟨getLsbD_lowByte a hi, getLsbD_lowByte b hi, getLsbD_sharedByte a b hi⟩⟩
  · obtain ⟨hx, hy⟩ := packSymbols_tail hlen ht
    exact ⟨_, _, hx, hy, fun i hi => ⟨getLsbD_lowByte t hi, getLsbD_tailByte t hi⟩⟩

/-! ### One flipped bit in each symbol of a message (R144) -/

theorem decode12_of_atMostOneFlip {d : Byte} {c : Symbol} (h : AtMostOneFlip (encode12 d) c) : decode12 c = d := by
  rcases h with rfl | ⟨q, hq, rfl⟩
  · exact decode12_encode12 d
  · exact decode12_flipBit_encode12 d hq

theorem map_decode12_of_atMostOneFlipEach {d : List Byte} {received : List Symbol}
    (h : AtMostOneFlipEach (d.map encode12) received) : received.map decode12 = d := by
  have hdecoded : List.Forall₂ (fun x c => x = decode12 c) d received :=
    (List.forall₂_map_left_iff.1 h).imp fun _ _ hc => (decode12_of_atMostOneFlip hc).symm
  exact (List.forall₂_eq_eq_eq ▸ List.forall₂_map_right_iff.2 hdecoded : d = received.map decode12).symm

@[simp] theorem unpackBytes_encodeMessage (d : List Byte) : unpackBytes (encodeMessage d) d.length = d.map encode12 := by
  simpa [encodeMessage] using unpackBytes_packSymbols (d.map encode12)

theorem decodeMessage_of_atMostOneFlipEach {d b : List Byte}
    (h : AtMostOneFlipEach (unpackBytes (encodeMessage d) d.length) (unpackBytes b d.length)) : decodeMessage b d.length = d := by
  rw [unpackBytes_encodeMessage] at h
  exact map_decode12_of_atMostOneFlipEach h

theorem atMostOneFlipEach_refl (s : List Symbol) : AtMostOneFlipEach s s := List.forall₂_same.2 fun _ _ => .inl rfl

theorem atMostOneFlipEach_modify {q : Nat} (hq : q < 12) : ∀ (s : List Symbol) (k : Nat),
    AtMostOneFlipEach s (s.modify k (flipBit · q))
  | [], _ => by simpa using atMostOneFlipEach_refl []
  | c :: s, 0 => .cons (.inr ⟨q, hq, rfl⟩) (atMostOneFlipEach_refl s)
  | c :: s, k + 1 => .cons (.inl rfl) (atMostOneFlipEach_modify hq s k)

/-! ### Which bit of which symbol a flipped bit of the bytes is -/

theorem joinSymbol_xor (hi hi' : BitVec 4) (lo lo' : Byte) :
    joinSymbol (hi ^^^ hi') (lo ^^^ lo') = joinSymbol hi lo ^^^ joinSymbol hi' lo' := by
  refine BitVec.eq_of_getLsbD_eq fun i _ => ?_
  simp only [BitVec.getLsbD_xor, getLsbD_joinSymbol]
  split <;> rfl

theorem loNibble_xor (v w : Byte) : loNibble (v ^^^ w) = loNibble v ^^^ loNibble w := by
  refine BitVec.eq_of_getLsbD_eq fun i _ => ?_
  simp [loNibble, Bool.and_xor_distrib_left]

theorem hiNibble_xor (v w : Byte) : hiNibble (v ^^^ w) = hiNibble v ^^^ hiNibble w := by
  refine BitVec.eq_of_getLsbD_eq fun i _ => ?_
  simp [hiNibble, Bool.and_xor_distrib_left]

theorem joinSymbol_flip_byte (hi : BitVec 4) (lo : Byte) {i : Nat} (h : i < 8) :
    joinSymbol hi (lo ^^^ 1#8 <<< i) = flipBit (joinSymbol hi lo) i := by
  have hbit : ∀ i < 8, joinSymbol 0#4 (1#8 <<< i) = 1#12 <<< i := by decide
  rw [flipBit, ← hbit i h, ← joinSymbol_xor, BitVec.xor_zero]

theorem joinSymbol_flip_nibble (hi : BitVec 4) (lo : Byte) {i : Nat} (h : i < 4) :
    joinSymbol (hi ^^^ 1#4 <<< i) lo = flipBit (joinSymbol hi lo) (8 + i) := by
  have hbit : ∀ i < 4, joinSymbol (1#4 <<< i) 0#8 = 1#12 <<< (8 + i) := by decide
  rw [flipBit, ← hbit i h, ← joinSymbol_xor, BitVec.xor_zero]

/-- A flipped bit of a byte flips the bit of one nibble and leaves the other alone. -/
theorem nibbles_flip (v : Byte) {i : Nat} (h : i < 8) :
    (i < 4 ∧ loNibble (v ^^^ 1#8 <<< i) = loNibble v ^^^ 1#4 <<< i ∧ hiNibble (v ^^^ 1#8 <<< i) = hiNibble v) ∨
      (4 ≤ i ∧ loNibble (v ^^^ 1#8 <<< i) = loNibble v ∧ hiNibble (v ^^^ 1#8 <<< i) = hiNibble v ^^^ 1#4 <<< (i - 4)) := by
  have hlow : ∀ i < 4, loNibble (1#8 <<< i) = 1#4 <<< i ∧ hiNibble (1#8 <<< i) = 0#4 := by decide
  have hhigh : ∀ i < 8, 4 ≤ i → loNibble (1#8 <<< i) = 0#4 ∧ hiNibble (1#8 <<< i) = 1#4 <<< (i - 4) := by decide
  rw [loNibble_xor, hiNibble_xor]
  rcases Nat.lt_or_ge i 4 with h4 | h4
  · obtain ⟨hl, hh⟩ := hlow i h4
    exact .inl ⟨h4, by rw [hl], by rw [hh, BitVec.xor_zero]⟩
  · obtain ⟨hl, hh⟩ := hhigh i h h4
    exact .inr ⟨h4, by rw [hl, BitVec.xor_zero], by rw [hh]⟩

/-- One bit of one of the first n symbols is flipped. -/
def OneSymbolBitFlipped (n : Nat) (s s' : List Symbol) : Prop :=
  ∃ k q, k < n ∧ q < 12 ∧ s' = s.modify k (flipBit · q)

theorem OneSymbolBitFlipped.after_pair {n : Nat} {s s' : List Symbol} (h : OneSymbolBitFlipped n s s') (x y : Symbol) :
    OneSymbolBitFlipped (n + 2) (x :: y :: s) (x :: y :: s') := by
  obtain ⟨k, q, hk, hq, rfl⟩ := h
  exact ⟨k + 2, q, by omega, hq, rfl⟩

theorem OneSymbolBitFlipped.first {n q : Nat} (hq : q < 12) (x : Symbol) (s : List Symbol) :
    OneSymbolBitFlipped (n + 1) (x :: s) (flipBit x q :: s) := ⟨0, q, by omega, hq, rfl⟩

theorem OneSymbolBitFlipped.second {n q : Nat} (hq : q < 12) (x y : Symbol) (s : List Symbol) :
    OneSymbolBitFlipped (n + 2) (x :: y :: s) (x :: flipBit y q :: s) := ⟨1, q, by omega, hq, rfl⟩

/-- Every bit of the packed bytes but those of a tail's upper nibble belongs to one symbol (R140). -/
theorem unpackBytes_flipByteBit {b : List Byte} {n : Nat} (h : HoldsPacked b n) {i : Nat} (hi : i < 8) :
    ∀ {m : Nat}, m < encLen n → ¬(n % 2 = 1 ∧ m = encLen n - 1 ∧ 4 ≤ i) →
      OneSymbolBitFlipped n (unpackBytes b n) (unpackBytes (flipByteBit b m i) n) := by
  induction h with
  | nil => exact fun hm => absurd hm (by simp)
  | tail lo hi' =>
    intro m hm hbit
    match m, hm with
    | 0, _ =>
      show OneSymbolBitFlipped 1 [_] [joinSymbol (loNibble hi') (lo ^^^ 1#8 <<< i)]
      rw [joinSymbol_flip_byte _ _ hi]
      exact .first (by omega) _ []
    | 1, _ =>
      have h4 : i < 4 := by simpa using hbit
      show OneSymbolBitFlipped 1 [_] [joinSymbol (loNibble (hi' ^^^ 1#8 <<< i)) lo]
      obtain ⟨_, hl, _⟩ | ⟨hge, _⟩ := nibbles_flip hi' hi
      · rw [hl, joinSymbol_flip_nibble _ _ h4]
        exact .first (by omega) _ []
      · omega
  | @pair x y z rest n hrest ih =>
    intro m hm hbit
    rw [encLen_add_two] at hm hbit
    match m, hm, hbit with
    | 0, _, _ =>
      show OneSymbolBitFlipped (n + 2) (_ :: _) (joinSymbol (loNibble z) (x ^^^ 1#8 <<< i) :: _)
      rw [joinSymbol_flip_byte _ _ hi]
      exact .first (by omega) _ _
    | 1, _, _ =>
      show OneSymbolBitFlipped (n + 2) (_ :: _ :: _) (_ :: joinSymbol (hiNibble z) (y ^^^ 1#8 <<< i) :: _)
      rw [joinSymbol_flip_byte _ _ hi]
      exact .second (by omega) _ _ _
    | 2, _, _ =>
      show OneSymbolBitFlipped (n + 2) (_ :: _ :: _)
        (joinSymbol (loNibble (z ^^^ 1#8 <<< i)) x :: joinSymbol (hiNibble (z ^^^ 1#8 <<< i)) y :: _)
      obtain ⟨h4, hl, hh⟩ | ⟨h4, hl, hh⟩ := nibbles_flip z hi <;> rw [hl, hh]
      · rw [joinSymbol_flip_nibble _ _ h4]
        exact .first (by omega) _ _
      · rw [joinSymbol_flip_nibble _ _ (by omega)]
        exact .second (by omega) _ _ _
    | m + 3, hm, hbit => exact (ih (m := m) (by omega) (by omega)).after_pair _ _

/-- The upper nibble of a tail belongs to no symbol (R138). -/
theorem unpackBytes_flipByteBit_tail {b : List Byte} {n i : Nat} (h : HoldsPacked b n) (hn : n % 2 = 1) (hi : i < 8)
    (h4 : 4 ≤ i) : unpackBytes (flipByteBit b (encLen n - 1) i) n = unpackBytes b n := by
  have hlast : encLen n - 1 < b.length := by rw [h.length_eq, encLen_eq]; omega
  have hlo : loNibble (b[encLen n - 1] ^^^ 1#8 <<< i) = loNibble b[encLen n - 1] := by
    obtain ⟨hlt, _⟩ | ⟨_, hl, _⟩ := nibbles_flip b[encLen n - 1] hi
    · omega
    · exact hl
  rw [flipByteBit, List.modify_eq_set_get _ hlast]
  exact unpackBytes_set_tail h hn (List.getElem?_eq_getElem hlast) hlo

/-- Settles O22: a flipped bit of the bytes is one of one symbol or of none, and the decoder corrects one in each symbol. -/
theorem messageRoundTripUnderFlips : Obligations.MessageRoundTripUnderFlips := by
  refine ⟨fun d => decodeMessage_of_atMostOneFlipEach (atMostOneFlipEach_refl _),
    fun d b _ h => decodeMessage_of_atMostOneFlipEach h, fun d m i hm hi => ?_⟩
  have hpacked := holdsPacked_of_length (length_encodeMessage d)
  intro b
  split_ifs with htail
  · obtain ⟨hodd, rfl, h4⟩ := htail
    have hsame : unpackBytes b d.length = unpackBytes (encodeMessage d) d.length := unpackBytes_flipByteBit_tail hpacked hodd hi h4
    exact ⟨decodeMessage_of_atMostOneFlipEach (hsame ▸ atMostOneFlipEach_refl _), hsame⟩
  · obtain ⟨k, q, hk, hq, hflip⟩ := unpackBytes_flipByteBit hpacked hi hm htail
    exact ⟨decodeMessage_of_atMostOneFlipEach (hflip ▸ atMostOneFlipEach_modify hq _ k), k, q, hk, hq, hflip⟩

end Sys2Proof.Machine
end

section
/-! The packer commands and the message commands: what each writes when its checks pass, and how it ends when one fails
(41_message_packer.md R133, R143 to R149; 60_exceptions.md R177). -/

namespace Sys2Proof.Machine

/-! ### ENC_LEN and the count limit -/

theorem planOf_encLen_of_le {s : State} (h : s.len.toNat ≤ 0xAAAAAAAA) :
    planOf .encLen s = .complete (some (toReg (encLen s.len.toNat))) 0 [] :=
  if_pos ((fits_encLen_iff _).2 h)

theorem planOf_encLen_of_lt {s : State} (h : 0xAAAAAAAA < s.len.toNat) : planOf .encLen s = .raise .badRange :=
  if_neg (mt (fits_encLen_iff _).1 (Nat.not_le.2 h))

/-- Settles O15: `complete` up to the limit, `raise` beyond. -/
theorem encLenComputesOrRefuses : Obligations.EncLenComputesOrRefuses := by
  refine ⟨decodeCmd_encode .encLen, fun s h => ?_, fun s h => exec_refuses (planOf_encLen_of_lt h), by decide⟩
  obtain ⟨t, hexec, hended, haround, hmem, hresult⟩ := exec_completes (planOf_encLen_of_le h)
  exact ⟨t, hexec, hended, haround, hmem, hresult ▸ toNat_toReg ((fits_encLen_iff _).2 h)⟩

theorem exec_of_not_rangesPass {i : Instr} {s : State} {m n : Nat} (hi : commandSizes i s.len.toNat = some (m, n))
    (h : ¬s.RangesPass m n) : ∃ t, exec i s = .next t ∧ RefusedWith 4 s t :=
  exec_refuses (planOf_bad hi h)

section
variable {s : State} {n : Nat}

theorem not_rangesPass_of_input_encLen (h : 0xAAAAAAAA < s.len.toNat) : ¬s.RangesPass (encLen s.len.toNat) n :=
  fun hp => Nat.not_le.2 h ((fits_encLen_iff _).1 hp.fits_in)

theorem not_rangesPass_of_output_encLen (h : 0xAAAAAAAA < s.len.toNat) : ¬s.RangesPass n (encLen s.len.toNat) :=
  fun hp => Nat.not_le.2 h ((fits_encLen_iff _).1 hp.fits_out)

theorem not_rangesPass_of_input_containers (h : 0x7FFFFFFF < s.len.toNat) : ¬s.RangesPass (2 * s.len.toNat) n :=
  fun hp => Nat.not_le.2 h ((fits_two_mul_iff _).1 hp.fits_in)

theorem not_rangesPass_of_output_containers (h : 0x7FFFFFFF < s.len.toNat) : ¬s.RangesPass n (2 * s.len.toNat) :=
  fun hp => Nat.not_le.2 h ((fits_two_mul_iff _).1 hp.fits_out)

end

/-- Settles O18: beyond the limit a count of the command does not fit, so its checks do not pass. -/
theorem countLimit : Obligations.CountLimit := by
  refine ⟨fits_encLen_iff, fun n => ?_, fun s h => ?_, fun s h => ?_, fun s h => ?_⟩
  · rw [fits_two_mul_iff, fits_encLen_iff]
    omega
  · simp only [List.forall_mem_cons, List.not_mem_nil, false_imp_iff, implies_true, and_true]
    exact ⟨exec_of_not_rangesPass rfl (not_rangesPass_of_output_encLen h),
      exec_of_not_rangesPass rfl (not_rangesPass_of_input_encLen h), exec_refuses (planOf_encLen_of_lt h)⟩
  · simp only [List.forall_mem_cons, List.not_mem_nil, false_imp_iff, implies_true, and_true]
    exact ⟨exec_of_not_rangesPass rfl (not_rangesPass_of_input_containers h),
      exec_of_not_rangesPass rfl (not_rangesPass_of_output_containers h)⟩
  · obtain ⟨t, hexec, hended, _⟩ := exec_completes (planOf_encLen_of_le h)
    exact ⟨t, hexec, hended⟩

/-! ### The length postcondition (R143) -/

theorem CmdError.code_ne_inconsistency (c : CmdError) : c.code ≠ 2 := by cases c <;> decide

/-- No command ends with InternalConsistencyFault: every end is an error of another code, or a completion. -/
theorem State.finish_err_fatal (i : Instr) (s : State) :
    (s.finish (planOf i s)).err ≠ 2 ∧ (s.finish (planOf i s)).fatal = s.fatal := by
  rcases planOf_cases i s with ⟨c, hp⟩ | ⟨r, hp⟩ | ⟨m, n, out, _, _, _, hp⟩ <;> rw [hp]
  · exact ⟨c.code_ne_inconsistency, rfl⟩
  · exact ⟨(by decide : (0 : BitVec 4) ≠ 2), rfl⟩
  · exact ⟨(by decide : (0 : BitVec 4) ≠ 2), rfl⟩

@[simp] theorem State.accept_fatal (s : State) (w : Word) : (s.accept w).fatal = s.fatal := by
  rcases s.accept_cases w with ⟨_, h⟩ | ⟨_, _, h⟩ | ⟨_, _, h⟩ <;> rw [h]
  rfl

@[simp] theorem State.writeReg_fatal (s : State) (r : Reg) (w : Word) : (s.writeReg r w).fatal = s.fatal := by
  cases r with
  | id | result | reserved | ctrl => rfl
  | cmd => exact s.accept_fatal w
  | status | arg | src | dst | len =>
    simp only [State.writeReg]
    split <;> rfl

theorem step_fatal {s t : State} (hstep : step s = .next t) (hf : s.fatal = false) : t.fatal = false := by
  cases step_next_case hstep with
  | runs hc hr hfl i hd ht => exact ht ▸ (State.finish_err_fatal i s.popped).2.trans hf
  | regWrite n o w rest he hs r hr ht => exact ht ▸ (State.writeReg_fatal s.popped r w).trans hf
  | rstAssert rest he ht | rstDeassert rest he hs ht => exact ht ▸ rfl
  | waits hc hi ht | rejects hc hr hfl r hd ht | regRead n o rest he hr v k ht | regWriteHeld n o w rest he hs ht
  | memRead a rest he ha v k ht | memWriteApart a v rest he ha hfl ht | memWriteInFlight a v rest he ha r hfl ht
  | rstNoEdge rest he hs ht => exact ht ▸ hf

/-- Settles O31: the one writer of FATAL is the end that `planOf_cases` leaves out. -/
theorem lengthCheckNeverFails : Obligations.LengthCheckNeverFails := by
  refine ⟨fun i s t h => ?_, fun s t hstep hf => step_fatal hstep hf⟩
  rw [exec_next h]
  exact State.finish_err_fatal i s

/-! ### The ends of a memory command, said once -/

/-- A command that completes with n bytes from DST on, under the duty: they are read back there, and nothing else changed. -/
theorem exec_writes {i : Instr} {s : State} {v : Word} {out : List Byte} {n : Nat} (hw : s.mem.wf = true) (hu : s.Untouched)
    (hl : out.length = n) (h : planOf i s = .complete (some v) s.dst.toNat out) :
    ∃ t, exec i s = .next t ∧ EndedWith 0 t ∧ SameAround s t ∧ t.result = v ∧ t.mem.readBytes s.dst.toNat n = out ∧
      SameBytesOutside s.dst.toNat n s t := by
  subst hl
  have hread : (s.mem.writeBytes s.dst.toNat (s.settle s.dst.toNat out)).readBytes s.dst.toNat out.length = out := by
    rw [State.settle_of_untouched hu]
    exact Memory.readBytes_writeBytes out hw
  exact ⟨_, h ▸ exec_eq_finish i s, State.complete_ended _ _, s.finish_complete_around _ _ _, rfl, hread,
    s.finish_complete_outside _ _ _⟩

/-- A memory command other than PACK never ends with InvalidInput. -/
theorem exec_err_ne_one {i : Instr} {s t : State} {m n : Nat} (hi : commandSizes i s.len.toNat = some (m, n)) (hne : i ≠ .pack)
    (h : exec i s = .next t) : t.err ≠ 1 := by
  rw [exec_next h]
  by_cases hp : s.RangesPass m n
  · rcases planOf_pass hi hp with ⟨out, hplan, _⟩ | ⟨hpack, _⟩
    · rw [hplan]
      exact (by decide : (0 : BitVec 4) ≠ 1)
    · exact absurd hpack hne
  · rw [planOf_bad hi hp]
    exact (by decide : CmdError.code .badRange ≠ 1)

theorem State.rangesPass_zero (s : State) : s.RangesPass 0 0 :=
  ⟨by decide, by decide, rfl, rfl, rfl⟩

/-- With LEN = 0 a memory command completes wherever SRC and DST point, and writes nothing. -/
theorem exec_empty {i : Instr} {s : State} (hi : commandSizes i 0 = some (0, 0)) (hlen : s.len = 0)
    (hpack : i = .pack → packRefuses s = false) : ∃ t, exec i s = .next t ∧ EndedWith 0 t ∧ t.result = 0 ∧ t.mem = s.mem := by
  have hi' : commandSizes i s.len.toNat = some (0, 0) := hlen ▸ hi
  rcases planOf_pass hi' s.rangesPass_zero with ⟨out, hplan, hl⟩ | ⟨rfl, hrefuses, _⟩
  · obtain rfl := List.length_eq_zero_iff.1 hl
    exact ⟨_, hplan ▸ exec_eq_finish i s, State.complete_ended _ _, rfl, rfl⟩
  · simp [hpack rfl] at hrefuses

/-! ### ENC_MSG -/

theorem exec_encMsg_pass {s : State} (hw : s.mem.wf = true) (hu : s.Untouched)
    (hp : s.RangesPass s.len.toNat (encLen s.len.toNat)) :
    ∃ t, exec .encMsg s = .next t ∧ EndedWith 0 t ∧ SameAround s t ∧ t.result.toNat = encLen s.len.toNat ∧
      t.mem.readBytes s.dst.toNat (encLen s.len.toNat) = encodeMessage (s.mem.readBytes s.src.toNat s.len.toNat) ∧
      SameBytesOutside s.dst.toNat (encLen s.len.toNat) s t := by
  obtain ⟨t, hexec, hended, haround, hresult, hbytes, houtside⟩ :=
    exec_writes (i := .encMsg) (n := encLen s.len.toNat) hw hu (by simp) (planEncMsg_pass hp)
  exact ⟨t, hexec, hended, haround, hresult ▸ toNat_toReg hp.fits_out, hbytes, houtside⟩

theorem packSymbols_append_of_even {s : List Symbol} (s' : List Symbol) (h : s.length % 2 = 0) :
    packSymbols (s ++ s') = packSymbols s ++ packSymbols s' := by
  induction s using packSymbols.induct with
  | case1 a b rest ih => simp [packSymbols, ih (by simpa [Nat.add_assoc] using h)]
  | case2 t => simp at h
  | case3 => rfl

theorem encodeMessage_append_of_even {d : List Byte} (x : Byte) (h : d.length % 2 = 0) :
    encodeMessage (d ++ [x]) = encodeMessage d ++ [lowByte (encode12 x), (highNibble (encode12 x)).setWidth 8] := by
  rw [encodeMessage, List.map_append, packSymbols_append_of_even _ (by simpa using h)]
  rfl

/-- Settles O23: the checks passed, the plan is `planEncMsg_pass`; the encoding of the odd message 00 is not how that of 00 5A begins. -/
theorem encMsgWritesEncodedMessage : Obligations.EncMsgWritesEncodedMessage :=
  ⟨decodeCmd_encode .encMsg, fun _ hw hu hp => exec_encMsg_pass hw hu hp, fun _ h => exec_of_not_rangesPass rfl h,
    fun _ h => not_rangesPass_of_output_encLen h, fun _ _ h => exec_err_ne_one (i := .encMsg) rfl nofun h,
    fun _ h => exec_empty rfl h nofun, fun _ x h => encodeMessage_append_of_even x h,
    ⟨[0x00], 0x5A, by decide, by decide⟩, by decide⟩

/-! ### DEC_MSG -/

theorem toReg_toNat (w : Word) : toReg w.toNat = w := by simp [toReg]

theorem exec_decMsg_pass {s : State} (hw : s.mem.wf = true) (hu : s.Untouched)
    (hp : s.RangesPass (encLen s.len.toNat) s.len.toNat) :
    ∃ t, exec .decMsg s = .next t ∧ EndedWith 0 t ∧ SameAround s t ∧ t.result = s.len ∧
      t.mem.readBytes s.dst.toNat s.len.toNat =
        decodeMessage (s.mem.readBytes s.src.toNat (encLen s.len.toNat)) s.len.toNat ∧
      SameBytesOutside s.dst.toNat s.len.toNat s t := by
  obtain ⟨t, hexec, hended, haround, hresult, hbytes, houtside⟩ :=
    exec_writes (i := .decMsg) (n := s.len.toNat) hw hu (by simp [decodeMessage, length_unpackBytes]) (planDecMsg_pass hp)
  exact ⟨t, hexec, hended, haround, hresult.trans (toReg_toNat s.len), hbytes, houtside⟩

/-- Settles O24: the checks passed, the plan is `planDecMsg_pass`. -/
theorem decMsgWritesDecodedMessage : Obligations.DecMsgWritesDecodedMessage :=
  ⟨decodeCmd_encode .decMsg, fun _ hw hu hp => exec_decMsg_pass hw hu hp, fun _ h => exec_of_not_rangesPass rfl h,
    fun _ h => not_rangesPass_of_input_encLen h, fun _ _ h => exec_err_ne_one (i := .decMsg) rfl nofun h,
    fun _ h => exec_empty rfl h nofun, by decide⟩

/-! ### PACK -/

theorem packRefuses_iff {s : State} (hu : s.Untouched) :
    packRefuses s = true ↔ ∃ c ∈ s.mem.readContainers s.src.toNat s.len.toNat, 2 ^ 12 ≤ c.toNat := by
  simp [packRefuses_of_input_kept hu.input, packContainers, Container.tooWide]

theorem packRefuses_eq_false_iff {s : State} (hu : s.Untouched) :
    packRefuses s = false ↔ ∀ c ∈ s.mem.readContainers s.src.toNat s.len.toNat, c.toNat < 2 ^ 12 := by
  rw [← Bool.not_eq_true, packRefuses_iff hu]
  simp only [not_exists, not_and, Nat.not_le]

theorem planOf_pack_of_symbols {s : State} (hp : s.RangesPass (2 * s.len.toNat) (encLen s.len.toNat))
    (h : packRefuses s = false) :
    planOf .pack s = .complete (some (toReg (encLen s.len.toNat))) s.dst.toNat
      (packSymbols ((packContainers s).map Container.symbol)) := by
  rw [planOf, planPack_pass hp, h, if_neg Bool.false_ne_true]

theorem planOf_pack_of_refuses {s : State} (hp : s.RangesPass (2 * s.len.toNat) (encLen s.len.toNat))
    (h : packRefuses s = true) : planOf .pack s = .raise .invalidInput := by
  rw [planOf, planPack_pass hp, if_pos h]

theorem exec_pack_pass {s : State} (hw : s.mem.wf = true) (hu : s.Untouched)
    (hp : s.RangesPass (2 * s.len.toNat) (encLen s.len.toNat)) (h : packRefuses s = false) :
    ∃ t, exec .pack s = .next t ∧ EndedWith 0 t ∧ SameAround s t ∧ t.result.toNat = encLen s.len.toNat ∧
      t.mem.readBytes s.dst.toNat (encLen s.len.toNat) =
        packSymbols ((s.mem.readContainers s.src.toNat s.len.toNat).map (·.setWidth 12)) ∧
      SameBytesOutside s.dst.toNat (encLen s.len.toNat) s t := by
  obtain ⟨t, hexec, hended, haround, hresult, hbytes, houtside⟩ :=
    exec_writes (n := encLen s.len.toNat) hw hu (by simp [length_packSymbols, packContainers]) (planOf_pack_of_symbols hp h)
  exact ⟨t, hexec, hended, haround, hresult ▸ toNat_toReg hp.fits_out, hbytes, houtside⟩

theorem exec_pack_empty {s : State} (hu : s.Untouched) (h : s.len = 0) :
    ∃ t, exec .pack s = .next t ∧ EndedWith 0 t ∧ t.result = 0 ∧ t.mem = s.mem := by
  refine exec_empty rfl h fun _ => (packRefuses_eq_false_iff hu).2 ?_
  simp [h, Memory.readContainers]

/-- Settles O25: the validation pass (`packRefuses_iff`) decides between packing and refusal. -/
theorem packPacksOrRefuses : Obligations.PackPacksOrRefuses :=
  ⟨decodeCmd_encode .pack,
    fun _ hw hu hp => ⟨fun h => exec_pack_pass hw hu hp ((packRefuses_eq_false_iff hu).2 h),
      fun h => exec_refuses (planOf_pack_of_refuses hp ((packRefuses_iff hu).2 h))⟩,
    fun _ h => exec_of_not_rangesPass rfl h, fun _ hu h => exec_pack_empty hu h, by decide⟩

/-! ### UNPACK -/

/-- A symbol's container image, read as a container, is the symbol with upper nibble 0 (20_memory.md R66). -/
theorem joinContainer_symbol (s : Symbol) : joinContainer ((highNibble s).setWidth 8) (lowByte s) = s.setWidth 16 := by
  refine BitVec.eq_of_getLsbD_eq fun i hi => ?_
  have happend := BitVec.getLsbD_append (x := (highNibble s).setWidth 8) (y := lowByte s) (i := i)
  rw [joinContainer, happend, BitVec.getLsbD_setWidth (x := s), decide_eq_true hi, Bool.true_and]
  rcases Nat.lt_or_ge i 8 with h | h
  · rw [if_pos h, getLsbD_lowByte s h]
  · rw [if_neg (by omega), getLsbD_tailByte s (by omega)]
    split_ifs with h3
    · rw [show 8 + (i - 8) = i by omega]
    · rw [BitVec.getLsbD_of_ge _ _ (by omega)]

theorem Memory.readContainers_of_image {m : Memory} : ∀ {s : List Symbol} {n base : Nat}, s.length = n →
    m.readBytes base (2 * n) = containersImage s → m.readContainers base n = s.map (·.setWidth 16)
  | [], _, _, rfl, _ => rfl
  | c :: s, _, base, rfl, h => by
    obtain ⟨hlo, hhi, hrest⟩ : m.read base = lowByte c ∧ m.read (base + 1) = (highNibble c).setWidth 8 ∧
        m.readBytes (base + 2) (2 * s.length) = containersImage s := by
      simpa [Nat.mul_add, Memory.readBytes, containersImage, containerBytes] using h
    simp only [List.length_cons, Memory.readContainers, List.map_cons, hlo, hhi, joinContainer_symbol,
      Memory.readContainers_of_image rfl hrest]

theorem exec_unpack_pass {s : State} (hw : s.mem.wf = true) (hu : s.Untouched)
    (hp : s.RangesPass (encLen s.len.toNat) (2 * s.len.toNat)) :
    ∃ t, exec .unpack s = .next t ∧ EndedWith 0 t ∧ SameAround s t ∧ t.result.toNat = 2 * s.len.toNat ∧
      t.mem.readContainers s.dst.toNat s.len.toNat =
        (unpackBytes (s.mem.readBytes s.src.toNat (encLen s.len.toNat)) s.len.toNat).map (·.setWidth 16) ∧
      SameBytesOutside s.dst.toNat (2 * s.len.toNat) s t := by
  have hlen : (unpackBytes (s.mem.readBytes s.src.toNat (encLen s.len.toNat)) s.len.toNat).length = s.len.toNat :=
    length_unpackBytes _ _ (by simp)
  obtain ⟨t, hexec, hended, haround, hresult, hbytes, houtside⟩ :=
    exec_writes (i := .unpack) (n := 2 * s.len.toNat) hw hu (by simp [hlen]) (planUnpack_pass hp)
  exact ⟨t, hexec, hended, haround, hresult ▸ toNat_toReg hp.fits_out, Memory.readContainers_of_image hlen hbytes, houtside⟩

/-- Settles O26: the checks passed, the plan is `planUnpack_pass`, whose image is read back as containers. -/
theorem unpackWritesContainers : Obligations.UnpackWritesContainers :=
  ⟨decodeCmd_encode .unpack, fun _ hw hu hp => exec_unpack_pass hw hu hp, fun _ h => exec_of_not_rangesPass rfl h,
    fun _ _ h => exec_err_ne_one (i := .unpack) rfl nofun h, fun _ h => exec_empty rfl h nofun,
    fun _ _ _ _ hn h hv hlo => unpackBytes_set_tail (holdsPacked_of_length h) hn hv hlo, by decide⟩

/-! ### From one machine to another -/

/-- Settles O59: DEC_MSG decodes what arrives, and one flipped bit in each symbol does not show in it. -/
theorem encodeTransmitDecode : Obligations.EncodeTransmitDecode := by
  intro s t r hw hu hp hexec hw' hu' hlen hp' hflips
  obtain ⟨t', hexec', _, _, _, hsent, _⟩ := exec_encMsg_pass hw hu hp
  cases hexec.symm.trans hexec'
  rw [← hlen] at hp'
  obtain ⟨u, hexecu, hended, _, hresult, hbytes, houtside⟩ := exec_decMsg_pass hw' hu' hp'
  rw [hlen] at hresult hbytes houtside
  refine ⟨u, hexecu, hended, hresult, ?_, houtside⟩
  rw [hsent] at hflips
  have hdecoded := decodeMessage_of_atMostOneFlipEach (d := s.mem.readBytes s.src.toNat s.len.toNat)
    (b := r.mem.readBytes r.src.toNat (encLen s.len.toNat)) (by simpa only [Memory.length_readBytes] using hflips)
  rwa [Memory.length_readBytes, ← hbytes] at hdecoded

/-- A container below 2^12 is its symbol, zero-extended. -/
theorem setWidth_container {c : Container} (h : c.toNat < 2 ^ 12) : (c.setWidth 12).setWidth 16 = c := by
  refine BitVec.eq_of_toNat_eq ?_
  rw [BitVec.toNat_setWidth, BitVec.toNat_setWidth, Nat.mod_eq_of_lt h, Nat.mod_eq_of_lt c.isLt]

theorem packRefuses_of_err_zero {s t : State} (hp : s.RangesPass (2 * s.len.toNat) (encLen s.len.toNat))
    (h : exec .pack s = .next t) (herr : t.err = 0) : packRefuses s = false := by
  refine Bool.eq_false_iff.2 fun hrefuses => ?_
  rw [exec_next h, planOf_pack_of_refuses hp hrefuses] at herr
  exact absurd herr (by decide : CmdError.code .invalidInput ≠ 0)

/-- Settles O60: UNPACK undoes PACK on symbols, and every container PACK accepted is its symbol zero-extended. -/
theorem packTransmitUnpack : Obligations.PackTransmitUnpack := by
  intro s t r hw hu hp hexec herr hw' hu' hlen hp' harrived
  have hpacks := packRefuses_of_err_zero hp hexec herr
  obtain ⟨t', hexec', _, _, _, hsent, _⟩ := exec_pack_pass hw hu hp hpacks
  cases hexec.symm.trans hexec'
  rw [← hlen] at hp'
  obtain ⟨u, hexecu, hended, _, _, hcontainers, _⟩ := exec_unpack_pass hw' hu' hp'
  refine ⟨u, hexecu, hended, ?_⟩
  have hinverse := unpackBytes_packSymbols ((s.mem.readContainers s.src.toNat s.len.toNat).map (·.setWidth 12))
  rw [List.length_map, Memory.length_readContainers] at hinverse
  rw [hlen, harrived, hsent, hinverse, List.map_map] at hcontainers
  have hkept := (packRefuses_eq_false_iff hu).1 hpacks
  exact hcontainers.trans ((List.map_congr_left fun c hc => setWidth_container (hkept c hc)).trans (List.map_id' _))

end Sys2Proof.Machine
end

section
/-! The errors of the commands, their completion, and the acceptance of the next command: which command ends with which code, what
an end leaves, and what the core's turn and the host writes around it come to (60_exceptions.md R172, R174 to R179, R182). -/

namespace Sys2Proof.Machine

/-! ### The end of a command, said once -/

/-- A command completes, or its plan is an error: the length postcondition never fails (`planOf_cases`). -/
theorem finish_ended_or_planOf_raise (i : Instr) (s : State) :
    EndedWith 0 (s.finish (planOf i s)) ∨ ∃ c, planOf i s = .raise c := by
  rcases planOf_cases i s with ⟨c, hp⟩ | ⟨r, hp⟩ | ⟨m, n, out, _, _, _, hp⟩
  · exact .inr ⟨c, hp⟩
  · exact .inl (hp ▸ State.complete_ended _ _)
  · exact .inl (hp ▸ State.complete_ended _ _)

/-- No command changes anything around STATUS, RESULT and memory. -/
theorem finish_planOf_around (i : Instr) (s : State) : SameAround s (s.finish (planOf i s)) := by
  rcases planOf_cases i s with ⟨c, hp⟩ | ⟨r, hp⟩ | ⟨m, n, out, _, _, _, hp⟩ <;> rw [hp]
  · exact (s.raise_refused c).around
  · exact s.finish_complete_around _ _ _
  · exact s.finish_complete_around _ _ _

theorem State.finish_endedWith (e : CmdEnd) (s : State) : EndedWith (s.finish e).err (s.finish e) := by
  obtain ⟨hbusy, hdone, hflight⟩ := s.finish_ended e
  exact ⟨hbusy, hdone, rfl, hflight⟩

/-- Settles O27: a memory command whose checks do not all pass is planned to raise BadRange (`planOf_bad`). -/
theorem memoryCommandsRefuseBadRanges : Obligations.MemoryCommandsRefuseBadRanges :=
  fun _ _ _ _ hi h => exec_of_not_rangesPass hi h

/-- Settles O30: a command that does not complete is planned to raise, and `raise` changes STATUS alone. -/
theorem errorsArePrecise : Obligations.ErrorsArePrecise := by
  refine ⟨rfl, rfl, rfl, fun c s => s.raise_refused c, fun i s t h herr => ?_⟩
  rw [exec_next h] at herr ⊢
  rcases finish_ended_or_planOf_raise i s with hended | ⟨c, hp⟩
  · exact absurd hended.err herr
  · exact ⟨c, by rw [hp, State.finish]⟩

/-! ### InvalidInput (R172) -/

theorem CmdError.code_eq_one_iff (c : CmdError) : c.code = 1 ↔ c = .invalidInput := by cases c <;> decide

/-- A command ends with ERR 1 exactly when its plan is to raise InvalidInput. -/
theorem exec_err_eq_one_iff {i : Instr} {s t : State} (h : exec i s = .next t) :
    t.err = 1 ↔ planOf i s = .raise .invalidInput := by
  rw [exec_next h]
  rcases finish_ended_or_planOf_raise i s with hended | ⟨c, hp⟩
  · have hne (hp : planOf i s = .raise .invalidInput) : False := by
      rw [hp] at hended
      exact absurd hended.err (by decide : CmdError.code .invalidInput ≠ 0)
    exact iff_of_false (by rw [hended.err]; decide) hne
  · rw [hp, State.finish, State.raise_err, CmdError.code_eq_one_iff, CmdEnd.raise.injEq]

theorem planOf_encSym_invalidInput_iff (s : State) : planOf .encSym s = .raise .invalidInput ↔ 2 ^ 8 ≤ s.arg.toNat := by
  refine ⟨fun hp => Nat.not_lt.1 fun hlt => ?_, planOf_encSym_of_le⟩
  simp [planOf_encSym_of_lt hlt] at hp

theorem planOf_decSym_invalidInput_iff (s : State) : planOf .decSym s = .raise .invalidInput ↔ 2 ^ 12 ≤ s.arg.toNat := by
  refine ⟨fun hp => Nat.not_lt.1 fun hlt => ?_, planOf_decSym_of_le⟩
  simp [planOf_decSym_of_lt hlt] at hp

/-- BadRange comes first: PACK validates its containers once its range checks pass. -/
theorem planOf_pack_invalidInput_iff {s : State} (hu : s.Untouched) :
    planOf .pack s = .raise .invalidInput ↔ s.RangesPass (2 * s.len.toNat) (encLen s.len.toNat) ∧
      ∃ c ∈ s.mem.readContainers s.src.toNat s.len.toNat, 2 ^ 12 ≤ c.toNat := by
  rw [← packRefuses_iff hu]
  by_cases hpass : s.RangesPass (2 * s.len.toNat) (encLen s.len.toNat)
  · cases hrefuses : packRefuses s with
    | true => simp [planOf_pack_of_refuses hpass hrefuses, hpass]
    | false => simp [planOf_pack_of_symbols hpass hrefuses]
  · simp [planOf_bad (i := .pack) rfl hpass, hpass]

theorem planOf_encLen_ne_invalidInput (s : State) : planOf .encLen s ≠ .raise .invalidInput := by
  rcases Nat.lt_or_ge 0xAAAAAAAA s.len.toNat with h | h
  · simp [planOf_encLen_of_lt h]
  · simp [planOf_encLen_of_le h]

theorem planOf_ne_invalidInput {i : Instr} {s : State} {m n : Nat} (hi : commandSizes i s.len.toNat = some (m, n))
    (hne : i ≠ .pack) : planOf i s ≠ .raise .invalidInput :=
  (exec_err_eq_one_iff (exec_eq_finish i s)).not.1 (exec_err_ne_one hi hne (exec_eq_finish i s))

/-- When a command is planned to raise InvalidInput, over all commands (60_exceptions.md R172). -/
theorem planOf_eq_invalidInput_iff (i : Instr) {s : State} (hu : s.Untouched) :
    planOf i s = .raise .invalidInput ↔
      (i = .encSym ∧ 2 ^ 8 ≤ s.arg.toNat) ∨ (i = .decSym ∧ 2 ^ 12 ≤ s.arg.toNat) ∨
      (i = .pack ∧ s.RangesPass (2 * s.len.toNat) (encLen s.len.toNat) ∧
        ∃ c ∈ s.mem.readContainers s.src.toNat s.len.toNat, 2 ^ 12 ≤ c.toNat) := by
  cases i with
  | nop => simp [planOf, planNop]
  | encSym => simp [planOf_encSym_invalidInput_iff]
  | decSym => simp [planOf_decSym_invalidInput_iff]
  | encMsg | decMsg | unpack => refine iff_of_false (planOf_ne_invalidInput rfl ?_) ?_ <;> simp
  | pack => simp [planOf_pack_invalidInput_iff hu]
  | encLen => simp [planOf_encLen_ne_invalidInput]

/-- Settles O29: ERR 1 is the plan to raise InvalidInput, and the memory commands other than PACK never have that plan. -/
theorem invalidInputExactly : Obligations.InvalidInputExactly := by
  refine ⟨fun i s t hu h => (exec_err_eq_one_iff h).trans (planOf_eq_invalidInput_iff i hu), fun i hi s t h => ?_⟩
  simp only [List.mem_cons, List.not_mem_nil, or_false] at hi
  rcases hi with rfl | rfl | rfl <;> exact exec_err_ne_one rfl (by decide) h

/-! ### InternalConsistencyFault (R175) -/

/-- Settles O32: the fault writes its output range alone and sets FATAL, under which `accept` does nothing; reset clears it. -/
theorem inconsistencyFaultIsFatal : Obligations.InconsistencyFaultIsFatal := by
  intro base n s
  refine ⟨⟨rfl, rfl, rfl, rfl⟩, rfl, rfl, fun a ha => ?_, State.accept_of_fatal rfl, _, rfl, rfl⟩
  exact Memory.read_writeBytes_outside _ _ (by rwa [State.length_freeBytes])

/-! ### RESULT (R176) -/

@[simp] theorem State.accept_result (s : State) (w : Word) : (s.accept w).result = s.result := by
  rcases s.accept_cases w with ⟨_, h⟩ | ⟨_, _, h⟩ | ⟨_, _, h⟩ <;> rw [h]
  rfl

/-- RESULT is written by the core alone (10_state.md R31). -/
@[simp] theorem State.writeReg_result (s : State) (r : Reg) (w : Word) : (s.writeReg r w).result = s.result := by
  cases r with
  | id | result | reserved | ctrl => rfl
  | cmd => exact s.accept_result w
  | status | arg | src | dst | len =>
    simp only [State.writeReg]
    split <;> rfl

/-- A step that changes RESULT is the completion of the command in flight, or the assertion of `rst`. -/
theorem step_result_ne {s t : State} (h : s.Inv) (hstep : step s = .next t) (hne : t.result ≠ s.result) :
    (s.busy = true ∧ s.CoreNext ∧ EndedWith 0 t) ∨ ∃ rest, s.inputs = .rstAssert :: rest := by
  cases step_next_case hstep with
  | runs hc hr hf i hd ht =>
    subst ht
    rcases finish_ended_or_planOf_raise i s.popped with hended | ⟨c, hp⟩
    · exact .inl ⟨h.inFlight_eq_busy ▸ hf, hc, hended⟩
    · exact absurd (by rw [hp]; rfl) hne
  | rstAssert rest he ht => exact .inr ⟨rest, he⟩
  | rstDeassert rest he hs ht => exact absurd (ht ▸ (h.held_at_reset hs).result.symm) hne
  | regWrite n o w rest he hs r hr ht => exact absurd (ht ▸ s.popped.writeReg_result r w) hne
  | waits hc hi ht | rejects hc hr hf r hd ht | regRead n o rest he hr v k ht | regWriteHeld n o w rest he hs ht
  | memRead a rest he ha v k ht | memWriteApart a v rest he ha hf ht | memWriteInFlight a v rest he ha r hf ht
  | rstNoEdge rest he hs ht => exact absurd (ht ▸ rfl) hne

/-- Settles O33: `complete` field by field; the one step but reset that writes RESULT is a completion (`step_result_ne`). -/
theorem completionActions : Obligations.CompletionActions :=
  ⟨fun r s => ⟨s.complete_ended (some r), rfl⟩, fun s => ⟨s.complete_ended none, rfl⟩,
    fun _ _ h hstep hne => step_result_ne h hstep hne⟩

/-! ### Acceptance (R178) -/

theorem State.accept_idle {s : State} (hf : s.fatal = false) (hb : s.busy = false) (w : Word) : s.accept w = s.latch w := by
  simp [State.accept, hf, hb]

theorem State.latch_around (w : Word) (s : State) : SameAround s (s.latch w) :=
  ⟨rfl, rfl, rfl, rfl, rfl, rfl, rfl, rfl, rfl, rfl⟩

/-- With no event pending the core performs the word it latched. -/
theorem step_latch {s : State} (hr : s.rst = false) (hin : s.inputs = []) (w : Word) :
    step (s.latch w) = runWord w (s.latch w) := by
  rw [step_nil (s := s.latch w) hin]
  simp [coreTurn, hr]

/-- Settles O34: FATAL and BUSY keep `accept` from doing anything; otherwise it is `latch`, and the word runs (`step_latch`). -/
theorem acceptanceRule : Obligations.AcceptanceRule := by
  intro s w hr
  refine ⟨fun hf => hostWriteReg_cmd_ignored (.inl hf) w, fun hb => hostWriteReg_cmd_ignored (.inr hb) w, fun hf hb => ?_⟩
  refine ⟨s.latch w, by rw [hostWriteReg_cmd hr, State.accept_idle hf hb], rfl, rfl, rfl, rfl, rfl, s.latch_around w, rfl, rfl,
    fun hin => ?_⟩
  rw [step_latch hr hin]
  exact ⟨fun i hd => runWord_ok hd _, fun r hd => runWord_error hd _⟩

/-! ### The core's turn ends the command in flight (R179), and a host write right after it (R182) -/

/-- Performing a word, legal or not, ends it and changes nothing around STATUS, RESULT and memory. -/
theorem runWord_ends (w : Word) (s : State) : ∃ t, runWord w s = .next t ∧ EndedWith t.err t ∧ SameAround s t := by
  cases hd : decodeCmd w with
  | ok i => exact ⟨_, (runWord_ok hd s).trans (exec_eq_finish i s), s.finish_endedWith _, finish_planOf_around i s⟩
  | error r => exact ⟨_, runWord_error hd s, ⟨rfl, rfl, rfl, rfl⟩, (s.raise_refused .illegalCommand).around⟩

theorem step_ends {s : State} (h : s.Inv) (hb : s.busy = true) (hc : s.CoreNext) :
    ∃ t, step s = .next t ∧ EndedWith t.err t ∧ SameAround s.popped t := by
  rw [step_of_busy h hb hc]
  exact runWord_ends s.curCmd s.popped

/-- Settles O45: the core's turn ends the word in flight (`step_ends`), and BUSY falls in no other way but reset (O39). -/
theorem acceptedCommandCompletes : Obligations.AcceptedCommandCompletes := by
  refine ⟨fun s h hb hc => ?_, fun s t h hb hc hstep => ?_⟩
  · obtain ⟨t, hstep, hended, haround⟩ := step_ends h hb hc
    exact ⟨t, hstep, hended, (stepKeepsInvariant s t h hstep).err_legal, haround.fatal.trans (h.not_fatal_of_busy hb)⟩
  · obtain ⟨_, _, _, hfalls⟩ := busyFromAcceptanceToCompletion s t h hstep
    cases hb' : t.busy with
    | true => exact .inl rfl
    | false => exact .inr ((hfalls hb hb').resolve_left hc)

/-- After the core's turn a host write of the window that stands right behind it meets an idle core. -/
theorem step_ends_before_regWrite {s : State} {n : Nat} {o : BitVec 6} {w : Word} {rest : List Event} (h : s.Inv)
    (hb : s.busy = true) (hin : s.inputs = .core :: .regWrite n o w :: rest) :
    ∃ t, step s = .next t ∧ t.done = true ∧ t.busy = false ∧ t.fatal = false ∧ t.rst = false ∧
      step t = hostWriteReg n o w t.popped := by
  obtain ⟨t, hstep, hended, haround⟩ := step_ends h hb (.inr (by rw [hin]; rfl))
  have hin' : t.inputs = .regWrite n o w :: rest := haround.inputs.trans (congrArg List.tail hin)
  exact ⟨t, hstep, hended.done, hended.busy, haround.fatal.trans (h.not_fatal_of_busy hb), haround.rst.trans (h.rst_of_busy hb),
    step_of_cons hin'⟩

/-- Settles O44: the write meets the core idle (`step_ends_before_regWrite`), so it clears DONE or is accepted. -/
theorem writeAfterCompletion : Obligations.WriteAfterCompletion := by
  intro s w rest h hb
  refine ⟨fun hin hw => ?_, fun hin => ?_⟩
  · obtain ⟨t, hstep, hdone, hbusy, _, hr, hwrite⟩ := step_ends_before_regWrite h hb hin
    rw [hostWriteReg_status (s := t.popped) hr] at hwrite
    exact ⟨t, _, hstep, hdone, hwrite, by simp [hw], hbusy⟩
  · obtain ⟨t, hstep, hdone, hbusy, hf, hr, hwrite⟩ := step_ends_before_regWrite h hb hin
    rw [hostWriteReg_cmd (s := t.popped) hr, State.accept_idle (s := t.popped) hf hbusy] at hwrite
    exact ⟨t, _, hstep, hdone, hwrite, rfl, rfl, rfl⟩

end Sys2Proof.Machine
end

section
/-! Reset and the drain of the pending events: what an assertion of `rst` does to the command in flight, what a step can do while `rst`
is held, and that the core is idle once the pending events are used up (70_reset_and_hazards.md R200 to R203, R211). -/

namespace Sys2Proof.Machine

/-! ### The command that reset abandons (R202, R203) -/

theorem State.getElem_landed (s : State) : ∀ (vs : List Byte) (base j : Nat) (hj : j < vs.length),
    (s.landed base vs)[j]'(by simpa using hj) = if Config.freeLanded s.draws (base + j) then vs[j] else s.mem.read (base + j)
  | _ :: _, _, 0, _ => rfl
  | v :: vs, base, j + 1, hj => by
    have ih := State.getElem_landed s vs (base + 1) j (by simpa using hj)
    rw [Nat.add_right_comm base 1 j] at ih
    exact ih

/-- With no command in flight there is nothing to abandon. -/
theorem State.abandon_of_flight_none {s : State} (h : s.flight = none) : s.abandon = s := by
  simp [State.abandon, State.flightOutput, h]

/-- Abandoning a command leaves each byte old, or the byte the command writes there. -/
theorem State.read_abandon {s : State} (hw : s.mem.wf = true) (a : Nat) :
    s.abandon.mem.read a = s.mem.read a ∨ s.flightByte a = some (s.abandon.mem.read a) := by
  cases ho : s.flightOutput with
  | none => exact .inl (by simp [State.abandon, ho])
  | some output =>
    obtain ⟨base, out⟩ := output
    have hmem : s.abandon.mem = s.mem.writeBytes base (s.landed base out) := by simp [State.abandon, ho]
    by_cases ha : base ≤ a ∧ a < base + out.length
    · obtain ⟨j, rfl⟩ := Nat.exists_eq_add_of_le ha.1
      have hj : j < out.length := by omega
      have hbyte : s.flightByte (base + j) = some out[j] := by simp [State.flightByte, ho, hj]
      have hread := Memory.read_writeBytes_inside (base := base) (s.landed base out) (by simpa using hj) hw
      rw [← hmem, s.getElem_landed out base j hj] at hread
      rw [hbyte, hread]
      split
      · exact .inr rfl
      · exact .inl rfl
    · exact .inl (hmem ▸ Memory.read_writeBytes_outside _ _ (by rwa [State.length_landed]))

/-- The bytes a memory command in flight writes are bytes of its output range. -/
theorem State.flightByte_outside {s : State} {i : Instr} {m n a : Nat} (hf : s.flight = some i)
    (hi : commandSizes i s.len.toNat = some (m, n)) (ha : ¬(s.dst.toNat ≤ a ∧ a < s.dst.toNat + n)) : s.flightByte a = none := by
  rcases planOf_memory hi with ⟨c, hp⟩ | ⟨out, rfl, hp⟩ <;> simp only [State.flightByte, State.flightOutput, hf, hp]
  split_ifs with hle
  · rw [List.getElem?_eq_none_iff, State.length_settle]
    omega
  · rfl

/-- Abandoning a command that does not reach buffer memory leaves it alone. -/
theorem State.abandon_mem_of_register {s : State} {i : Instr} (hf : s.flight = some i)
    (hi : commandSizes i s.len.toNat = none) : s.abandon.mem = s.mem := by
  rcases planOf_register hi with ⟨r, hp⟩ | ⟨c, hp⟩ <;> simp only [State.abandon, State.flightOutput, hf, hp]
  rfl

/-- Settles O48: an abandoned command leaves each byte old or the byte it writes there (`State.read_abandon`), which is what the byte
holds once the command has ended (`State.read_finish_of_flightByte`). -/
theorem resetAbandonsCommand : Obligations.ResetAbandonsCommand := by
  intro s rest hw he
  have hkept (hnone : s.popped.flight = none) : s.popped.abandon.mem = s.mem := by
    rw [State.abandon_of_flight_none hnone, State.popped_mem]
  refine ⟨{ s.popped.abandon.resetCore with rst := true }, step_of_cons he, rfl, rfl, rfl,
    fun hidle => hkept (State.flight_eq_none (.inl hidle)), fun i u hf hd hu => ?_,
    fun _ hillegal => hkept (State.flight_eq_none (.inr hillegal))⟩
  have hflight : s.popped.flight = some i := flight_of_decode hf hd
  refine ⟨fun _ a => (State.read_abandon (s := s.popped) hw a).imp_right fun hbyte => ?_,
    fun m n hi a ha => (State.read_abandon (s := s.popped) hw a).resolve_right fun hbyte => ?_,
    fun hi => State.abandon_mem_of_register hflight hi⟩
  · have hread := State.read_finish_of_flightByte (s := s.popped) hw hflight hbyte
    rw [planOf_popped, State.finish_popped, ← exec_next hu] at hread
    exact hread.symm
  · simp [State.flightByte_outside hflight hi ha] at hbyte

/-! ### The core's turn with nothing to run -/

theorem coreTurn_waits {s : State} (h : s.rst = true ∨ s.inFlight = false) : coreTurn s = .next s := by
  rcases h with h | h <;> simp [coreTurn, h]

/-! ### A step while `rst` is asserted (R200) -/

theorem hostReadReg_in_reset {n : Nat} {o : BitVec 6} {r : Reg} {s : State} (h : regAt n o = some r) (hr : s.rst = true) :
    hostReadReg n o s = .next { s with lastRead := some (.reg o (Config.freeWord s.draws)), draws := s.draws + 1 } := by
  simp [hostReadReg, h, hr]

theorem step_coreNext_held {s t : State} (hc : s.CoreNext) (hr : s.rst = true) (hstep : step s = .next t) : t = s.popped := by
  rw [step_of_coreNext hc, coreTurn_waits (s := s.popped) (.inl hr)] at hstep
  injection hstep with ht
  exact ht.symm

/-- A window read while `rst` is asserted draws its reply. -/
theorem step_regRead_held {s t : State} {n : Nat} {o : BitVec 6} {rest : List Event} (he : s.inputs = .regRead n o :: rest)
    (hr : s.rst = true) (hstep : step s = .next t) :
    ∃ v, t = { s.popped with lastRead := some (.reg o v), draws := s.draws + 1 } := by
  rw [step_of_cons he, happen] at hstep
  obtain ⟨r, hreg⟩ := Option.isSome_iff_exists.1 (hostReadReg_next hstep).1
  rw [hostReadReg_in_reset (s := s.popped) hreg hr] at hstep
  injection hstep with ht
  exact ⟨_, ht.symm⟩

/-- What every step from a state with `rst` asserted keeps. -/
structure HeldStep (s t : State) : Prop where
  atReset : t.AtReset
  mem : (∀ a v rest, s.inputs ≠ .memWrite a v :: rest) → t.mem = s.mem
  rst : t.rst = false ↔ ∃ rest, s.inputs = .rstDeassert :: rest

theorem step_held {s t : State} (h : s.Inv) (hr : s.rst = true) (hstep : step s = .next t) : HeldStep s t := by
  have hreset : s.AtReset := h.held_at_reset hr
  cases step_next_case hstep with
  | waits hc hi ht =>
    exact ht ▸ ⟨hreset.update .., fun _ => rfl, iff_of_false (by simp [hr]) fun ⟨_, he⟩ => nomatch hc.eq_core he⟩
  | regRead n o rest he hv v k ht => exact ht ▸ ⟨hreset.update .., fun _ => rfl, by simp [hr, he]⟩
  | regWriteHeld n o w rest he hs ht => exact ht ▸ ⟨hreset.update .., fun _ => rfl, by simp [hr, he]⟩
  | memRead a rest he ha v k ht => exact ht ▸ ⟨hreset.update .., fun _ => rfl, by simp [hr, he]⟩
  | memWriteApart a v rest he ha hf ht | memWriteInFlight a v rest he ha r hf ht =>
    exact ht ▸ ⟨hreset.update .., fun hne => absurd he (hne a v rest), by simp [hr, he]⟩
  | rstAssert rest he ht =>
    have hidle : s.popped.flight = none := State.flight_eq_none (.inl hreset.inFlight)
    rw [State.abandon_of_flight_none hidle] at ht
    exact ht ▸ ⟨State.atReset_of_rst _ true, fun _ => rfl, by simp [he]⟩
  | rstDeassert rest he hs ht => exact ht ▸ ⟨State.atReset_of_rst _ false, fun _ => rfl, by simp [he]⟩
  | runs hc hs | rejects hc hs | regWrite n o w rest he hs | rstNoEdge rest he hs => simp [hr] at hs

theorem step_rstNoEdge {s : State} {rest : List Event} (he : s.inputs = .rstDeassert :: rest) (hr : s.rst = false) :
    step s = .next s.popped := by
  rw [step_of_cons he]
  simp [happen, rstDeassert, hr]

/-- Settles O49: what any step keeps is `step_held`; the core's turn and the window accesses are said one by one. -/
theorem heldInReset : Obligations.HeldInReset := by
  refine ⟨fun s rest hr he => ?_, fun s t h hr hstep => ?_⟩
  · rw [step_rstNoEdge he hr, State.popped_of_cons he]
  · obtain ⟨hreset, hmem, hrst⟩ := step_held h hr hstep
    refine ⟨hmem, fun hc => step_coreNext_held hc hr hstep, hreset, hreset.irq, hrst, fun n o w rest he => ?_, fun n o rest he => ?_⟩
    · rw [step_regWrite_held he hr hstep, State.popped_of_cons he]
    · obtain ⟨v, ht⟩ := step_regRead_held he hr hstep
      exact ⟨v, by rw [ht, State.popped_of_cons he]⟩

/-! ### The pending events used up (R211) -/

theorem run_succ_of_step {M : Host.Core} {s t : M.State} (h : M.step s = .next t) (k : Nat) : M.run (k + 1) s = M.run k t := by
  rw [Host.Core.run, h]

/-- With no event pending the core's turn leaves it idle. -/
theorem step_of_nil_idle {s : State} (h : s.Inv) (hin : s.inputs = []) :
    ∃ t, step s = .next t ∧ t.inputs = [] ∧ t.busy = false := by
  cases hb : s.busy with
  | true =>
    obtain ⟨t, hstep, hended, haround⟩ := step_ends h hb (.inl hin)
    exact ⟨t, hstep, by simp [haround.inputs, hin], hended.busy⟩
  | false =>
    rw [step_nil hin, coreTurn_waits (.inr (h.inFlight_eq_busy.trans hb))]
    exact ⟨s, rfl, hin, hb⟩

/-- The run drains the events one by one, each with its meaning, and then gives the core its turn. -/
theorem core_run_drains : ∀ (events : List Event) {s : State}, s.inputs = events → s.Inv →
    (∀ e ∈ events, Event.hasMeaning s.memSize e = true) →
    ∃ t, Host.Core.run Sys2Proof.core (events.length + 1) s = .next t ∧ t.inputs = [] ∧ t.busy = false ∧ t.Inv
  | [], s, hin, h, _ => by
    obtain ⟨t, hstep, hnone, hidle⟩ := step_of_nil_idle h hin
    exact ⟨t, run_succ_of_step (M := Sys2Proof.core) hstep 0, hnone, hidle, stepKeepsInvariant s t h hstep⟩
  | e :: rest, s, hin, h, hall => by
    obtain ⟨hgoes, _, _, hkept⟩ := stepStopsOnlyOnHostAccess
    obtain ⟨t, hstep⟩ := (hgoes s).2 fun e' he' => hall e' (List.mem_of_mem_head? (hin ▸ he'))
    obtain ⟨hinputs, hsize⟩ := hkept s t hstep
    rw [List.length_cons, run_succ_of_step (M := Sys2Proof.core) hstep]
    exact core_run_drains rest (by rw [hinputs, hin]; rfl) (stepKeepsInvariant s t h hstep)
      (hsize ▸ fun e' he' => hall e' (.tail e he'))

/-- Settles O46, by induction on the pending events (`core_run_drains`). -/
theorem pendingEventsDrainToIdle : Obligations.PendingEventsDrainToIdle := by
  intro s h hall
  obtain ⟨t, hrun, hin, hidle, hinv⟩ := core_run_drains s.inputs rfl h hall
  exact ⟨t, hrun, hin, hidle, hinv.inFlight_eq_busy.trans hidle, hinv⟩

end Sys2Proof.Machine
end

section
/-! The command words of the spec and of the opcode table, and which command a step runs (30_encoding.md R82 to R84; 10_state.md
R40, 60_exceptions.md R178, R188). -/

namespace Sys2Proof

/-- Settles O1: the eight words are those of the encoder, the others lie in the two classes of rejected words. -/
theorem specWordsDecode : Obligations.SpecWordsDecode :=
  ⟨decodeCmd_encode .nop, decodeCmd_encode .encSym, decodeCmd_encode .decSym, decodeCmd_encode .encMsg, decodeCmd_encode .decMsg,
    decodeCmd_encode .pack, decodeCmd_encode .unpack, decodeCmd_encode .encLen,
    decodeCmd_reservedOp (by decide) (by decide), decodeCmd_reservedOp (by decide) (by decide),
    decodeCmd_reservedBits (by decide), decodeCmd_reservedBits (by decide), decodeCmd_reservedBits (by decide),
    decodeCmd_reservedBits (by decide)⟩

theorem wellFormed_eq_true (i : Instr) : i.wellFormed = true := by cases i <;> rfl

theorem ofNat_toNat_mod (w : Word) : BitVec.ofNat 32 (w.toNat % 2 ^ 32) = w := by
  rw [Nat.mod_eq_of_lt w.isLt, BitVec.ofNat_toNat, BitVec.setWidth_eq]

/-- The opcode table numbers a word by its value (R80). -/
theorem decodeTableWord_toNat (w : Word) : decodeTableWord 32 w.toNat = (decodeCmd w).toOption := by
  rw [decodeTableWord, if_pos (Nat.mod_lt _ (Nat.two_pow_pos 32)), ofNat_toNat_mod]

/-- Settles O3: the table's numbering is the decoder's (`decodeTableWord_toNat`). -/
theorem commandWordsRoundTrip : Obligations.CommandWordsRoundTrip := by
  refine fun i => ⟨wellFormed_eq_true i, decodeCmd_encode i, ?_⟩
  rw [decodeTableWord_toNat, decodeCmd_encode, Except.toOption]

end Sys2Proof

namespace Sys2Proof.Machine

/-! ### The core's turn, and the oldest pending event -/

theorem coreTurn_runs {s : State} {i : Instr} (hr : s.rst = false) (hf : s.inFlight = true) (hd : decodeCmd s.curCmd = .ok i) :
    coreTurn s = exec i s := by
  simp [coreTurn, hr, hf, runWord_ok hd]

/-- Settles O4: a step is the core's turn (`step_nil`), which runs the command in flight or waits, or is its event (`step_cons`). -/
theorem stepRunsDecodedCommand : Obligations.StepRunsDecodedCommand := by
  refine ⟨fun s i hr hf hd => ⟨fun hin => ?_, fun rest hin => ?_⟩, fun s hf => ⟨fun hin => ?_, fun rest hin => ?_⟩,
    fun s rest => ⟨fun _ _ => step_cons, fun _ _ _ => step_cons, fun _ => step_cons, fun _ _ => step_cons, step_cons, step_cons⟩⟩
  · exact (step_nil hin).trans (coreTurn_runs hr hf hd)
  · exact (step_cons hin).trans (coreTurn_runs hr hf hd)
  · exact (step_nil hin).trans (coreTurn_waits (.inr hf))
  · exact (step_cons hin).trans (coreTurn_waits (.inr hf))

/-- With the event that `withFetchWord` places used up, the word is accepted and the other events stand as before. -/
theorem State.withFetchWord_popped (s : State) (w : Word) :
    (s.withFetchWord 32 w.toNat).popped = State.latch w { s with rst := false } := by
  rw [State.withFetchWord, ofNat_toNat_mod]
  rfl

/-- Settles O5: the event placed first is the core's turn, which runs the word latched (`State.withFetchWord_popped`). -/
theorem fetchWordRunsNext : Obligations.FetchWordRunsNext := by
  intro s i
  have hturn := step_of_cons (s.withFetchWord_inputs 32 (encode i).toNat)
  rw [State.withFetchWord_popped] at hturn
  exact hturn.trans (coreTurn_runs rfl rfl (decodeCmd_encode i))

end Sys2Proof.Machine
end

section
/-! What the syndrome says of a symbol (40_symbol_codec.md R102), and the frame of the commands that do not reach buffer memory
(20_memory.md R60, 60_exceptions.md R174, R176). -/

namespace Sys2Proof.Machine

/-- Settles O11: linearity (`syndrome_xor`) makes the syndrome of a flip that of the symbol, here 0, XOR the position. -/
theorem syndromeNamesPosition : Obligations.SyndromeNamesPosition := by
  refine ⟨syndrome_xor, fun p h1 h12 => ?_, fun _ => rfl⟩
  have hzero : syndrome 0 = 0 := by decide
  rw [syndrome_flipBit_position 0 h1 h12, hzero, Nat.zero_xor]

/-- A command that does not reach buffer memory keeps it, and keeps RESULT when it ends with an error. -/
theorem finish_register_frame {i : Instr} {s : State} (hi : commandSizes i s.len.toNat = none) :
    (s.finish (planOf i s)).mem = s.mem ∧
      ((s.finish (planOf i s)).err ≠ 0 → (s.finish (planOf i s)).result = s.result) := by
  rcases planOf_register hi with ⟨r, hp⟩ | ⟨c, hp⟩ <;> rw [hp]
  · exact ⟨rfl, fun herr => absurd rfl herr⟩
  · exact ⟨rfl, fun _ => rfl⟩

theorem commandSizes_register {i : Instr} (hi : i ∈ [Instr.nop, .encSym, .decSym, .encLen]) (n : Nat) : commandSizes i n = none := by
  simp only [List.mem_cons, List.not_mem_nil, or_false] at hi
  rcases hi with rfl | rfl | rfl | rfl <;> rfl

/-- Settles O16: the four commands reach no memory (`finish_register_frame`), and NOP completes with no result. -/
theorem registerCommandFrame : Obligations.RegisterCommandFrame := by
  intro i hi s t h
  obtain rfl := exec_next h
  obtain ⟨hmem, herr⟩ := finish_register_frame (commandSizes_register hi s.len.toNat)
  exact ⟨finish_planOf_around i s, hmem, fun a => by rw [hmem], herr, fun hnop => hnop ▸ rfl⟩

end Sys2Proof.Machine
end
